-- ==== Sys2Proof/Word.lean ====
section
/-! DEFINITION. The bit-vector types the spec's values have (00_scope.md R7, 30_encoding.md R61). -/

namespace Sys2Proof

/-- A memory cell, a general register, a timer, the field `kk`: 8 bits, unsigned. -/
abbrev Byte := BitVec 8

/-- The instruction word, `pc`, `I`, a stack entry: 16 bits, unsigned. -/
abbrev Word := BitVec 16

/-- A general-register index (`x`, `y`, `WAITX`) or a key index: 4 bits, all sixteen values legal. -/
abbrev Reg := BitVec 4

/-- The field `n`: a sprite height `0..15`. -/
abbrev Nibble := BitVec 4

/-- The field `nnn`: an absolute 12-bit address. -/
abbrev Addr12 := BitVec 12

end Sys2Proof
end

