-- ==== Sys2Proof/Machine/Flags.lean ====
section
/-! DEFINITION. Every result and flag computation of the ALU (41_load_and_alu.md R107 to R113), on exact integers first and
narrowed at the end. -/

namespace Sys2Proof.Machine

/-- A sum, reduced modulo 256. -/
def sum8 (a b : Byte) : Byte := BitVec.ofNat 8 (a.toNat + b.toNat)

/-- The carry of a sum: it exceeds 255 (R107). -/
def carry (a b : Byte) : Bool := 255 < a.toNat + b.toNat

/-- A difference, reduced modulo 256. -/
def diff8 (a b : Byte) : Byte := BitVec.ofInt 8 ((a.toNat : Int) - b.toNat)

/-- The flag of both subtractions: minuend strictly greater than subtrahend (R108, R110; 0 at equality). -/
def greater (a b : Byte) : Bool := b.toNat < a.toNat

/-- `a >> 1` (R109). -/
def shr1 (a : Byte) : Byte := BitVec.ofNat 8 (a.toNat / 2)

/-- The bit a right shift drops. -/
def lowBit (a : Byte) : Bool := a.getLsbD 0

/-- `(a << 1) mod 256` (R111). -/
def shl1 (a : Byte) : Byte := BitVec.ofNat 8 (2 * a.toNat)

/-- The bit a left shift drops. -/
def highBit (a : Byte) : Bool := a.getLsbD 7

end Sys2Proof.Machine
end

