-- ==== Sys2Proof/Config.lean ====
section
/-! DEFINITION. What the hardware fixes (00_scope.md R5 to R12) and the two free values of a step (R13). -/

namespace Sys2Proof

/-- `MEM_SIZE` (R5): addresses `0x000` to `0xFFF`. -/
def Config.memSize : Nat := 4096

/-- `PROG_BASE` (R6): where a ROM is loaded and the reset value of `pc`. -/
def Config.progBase : Word := 0x200

/-- `ROM_MAX = MEM_SIZE - PROG_BASE` (R6). -/
def Config.romMax : Nat := 3584

/-- `STACK_DEPTH` (R8): the spec's default, which every vector of it uses (DESIGN CHOICE, log entry 11). -/
def Config.stackDepth : Nat := 16

/-- The byte drawn by `Cxkk` (R13, 41_load_and_alu.md R112), a FREE VALUE: nothing constrains it. The argument is the
counter `State.draws`, so that two draws are unrelated. Log entry 4. -/
opaque Config.rnd : Nat → Byte

/-- The choice `KeySelect` makes when SEVERAL keys are pressed (R13, 44_keypad_and_timers.md R149), a FREE VALUE: a
position in the list of pressed keys, taken modulo that list's length. The argument is `State.draws`. Log entry 5. -/
opaque Config.keyChoice : Nat → Nat

end Sys2Proof
end

