-- ==== Sys2Proof/Machine/State.lean ====
section
/-! DEFINITION. The state of the machine, the twelve components of 10_state.md and nothing else of the spec's, the reasons
an operation can end with a fault (60_exceptions.md R165), and the state after Reset (R35, R36). -/

namespace Sys2Proof.Machine

/-- `MEM` as its listed cells; what an unlisted address reads as is `unlistedByte` of Machine/Memory.lean, and the canonical
form is `Memory.wf` there. -/
abbrev Memory := List Host.Cell

/-- `FONT[0..79]` (00_scope.md R10): the glyph bytes, a parameter of the model. It is no state; Reset takes it. -/
abbrev Font := Vector Byte 80

/-- `FB` (R29): 32 rows, row `y` being the pixels `FB[y][0..63]`, pixel `x` of a row in bit `x`. -/
abbrev Framebuffer := Vector (BitVec 64) 32

/-- The two values of `MODE` (R30); a wait state of the engine, no privilege mode (R179). -/
inductive Mode where
  | running
  | waitingForKey
  deriving DecidableEq, Repr

/-- The error outcomes of R165. Each is a fault in the spec too: the operation ends with it and changes NO state (R168), so
the model's stop is what the hardware does. Stopping there is SAFE. -/
inductive Fault where
  /-- Raised by `2nnn` when `SP = STACK_DEPTH` on entry (R169). Safe. -/
  | stackOverflow
  /-- Raised by `00EE` when `SP = 0` on entry (R170). Safe. -/
  | stackUnderflow
  /-- Raised by a fetch, `Dxyn`, `Fx33`, `Fx55`, `Fx65` that would access an address above `0xFFF` (R171): the recorded
  value is `pc0` for a fetch, else the highest address of the transfer. Safe. -/
  | addressOutOfRange (a : Nat)
  /-- Raised by `Ex9E` and `ExA1` when `V[x] > 0xF` (R173). Safe. -/
  | keyIndexOutOfRange (k : Byte)
  /-- Raised by the host operation LoadROM alone, when the ROM has more than 3584 bytes (R174). Safe. -/
  | memoryOverrun (length : Nat)
  deriving DecidableEq, Repr

/-- Reasons to give no meaning. -/
inductive Refusal where
  /-- An instruction without a meaning yet, raised by its arm of `exec`; no arm does. Safe. -/
  | notModelled (mnemonic : String)
  deriving DecidableEq, Repr

/-- The state. `STACK` and `SP` are one field: the valid entries, newest first, `SP` being their number (R24, log entry 2). -/
structure State where
  /-- `V[0x0..0xF]` (R20); `VF = V[0xF]` is the flag (R21). -/
  v : Vector Byte 16
  /-- `I` (R22). -/
  i : Word
  /-- `pc` (R23): between steps the address of the next instruction. -/
  pc : Word
  /-- The valid stack entries `STACK[SP-1], ..., STACK[0]` (R24). -/
  stack : List Word
  /-- `DT` (R26). -/
  dt : Byte
  /-- `ST` (R27). -/
  st : Byte
  /-- `KEY[0x0..0xF]` (R28), `true` when pressed. -/
  keys : Vector Bool 16
  /-- `FB` (R29). -/
  fb : Framebuffer
  /-- `MEM` (R32). -/
  mem : Memory
  /-- `MODE` (R30). -/
  mode : Mode
  /-- `WAITX` (R30): the target register of the wait, meaningful while waiting. -/
  waitx : Reg
  /-- THE MODEL'S OWN field: how many free values have been drawn, the index of the next (log entry 4). -/
  draws : Nat
  deriving DecidableEq, Repr

/-- The state right after Reset (R35) of a machine with the default font; `State.resetWith` of Machine/Ops.lean is the state
for any font, and this one is its instance at `defaultFont`. `v` and `i` are the spec's own decision D4 (R36, log entry 1); `waitx` and `draws`
are values the model names (log entries 2 and 4). All four are DESIGN CHOICE and unsafe to lean on. Memory lists nothing:
every address reads as its reset content. -/
def State.reset : State where
  v := Vector.replicate 16 0
  i := 0
  pc := Config.progBase
  stack := []
  dt := 0
  st := 0
  keys := Vector.replicate 16 false
  fb := Vector.replicate 32 0
  mem := []
  mode := .running
  waitx := 0
  draws := 0

/-- What a step of the machine answers. -/
abbrev Result := Host.Outcome State Fault Refusal

end Sys2Proof.Machine
end

