-- ==== Sys2Proof/Machine/Framebuffer.lean ====
section
/-! DEFINITION. `FB` (10_state.md R29) and the XOR-draw unit (43_display.md R136, R138): one pixel, one sprite row, one
sprite. -/

namespace Sys2Proof.Machine

/-- The pixel `FB[y][x]`. -/
def Framebuffer.pixel (fb : Framebuffer) (y : Fin 32) (x : Fin 64) : Bool := fb[y].getLsbD x

/-- `FB[y][x] <- FB[y][x] xor 1`. -/
def Framebuffer.flip (fb : Framebuffer) (y : Fin 32) (x : Fin 64) : Framebuffer :=
  fb.set y (fb[y] ^^^ BitVec.twoPow 64 x)

/-- Every pixel off. -/
def Framebuffer.clear : Framebuffer := Vector.replicate 32 0

/-- The framebuffer in the middle of a draw, with the collision seen so far. -/
structure Draw where
  fb : Framebuffer
  collision : Bool
  deriving DecidableEq, Repr

/-- A sprite bit of 1 on pixel `(x, y)`: it collides when the pixel was on, and flips it. -/
def Draw.hit (d : Draw) (y : Fin 32) (x : Fin 64) : Draw :=
  ⟨d.fb.flip y x, d.collision || d.fb.pixel y x⟩

/-- A column coordinate, reduced modulo 64. -/
def fbColumn (n : Nat) : Fin 64 := Fin.ofNat 64 n

/-- A row coordinate, reduced modulo 32. -/
def fbRow (n : Nat) : Fin 32 := Fin.ofNat 32 n

/-- The grid in row-major order, the entry `y*64 + x` being `FB[y][x]` (R29). -/
def Framebuffer.grid (fb : Framebuffer) : List Bool :=
  (List.range 2048).map fun k => fb.pixel (fbRow (k / 64)) (fbColumn k)

/-- Column `c` of a sprite row is bit `7 - c` of its byte (R138). -/
def spriteColumn (b : Byte) (c : Nat) : Bool := b.getLsbD (7 - c)

/-- The columns `cs` of one sprite row `b`, at column `(vx + c) mod 64` each. -/
def Draw.columns (d : Draw) (vx : Nat) (y : Fin 32) (b : Byte) : List Nat → Draw
  | [] => d
  | c :: cs =>
    Draw.columns (if spriteColumn b c then d.hit y (fbColumn (vx + c)) else d) vx y b cs

/-- A sprite row, its columns 0 to 7. -/
def Draw.row (d : Draw) (vx : Nat) (y : Fin 32) (b : Byte) : Draw := d.columns vx y b (List.range 8)

/-- The rows of a sprite, at row `vy mod 32` and the following ones, each reduced modulo 32. -/
def Draw.rows (d : Draw) (vx vy : Nat) : List Byte → Draw
  | [] => d
  | b :: bs => Draw.rows (d.row vx (fbRow vy) b) vx (vy + 1) bs

/-- The draw of a whole sprite at `(vx, vy)`. -/
def drawSprite (fb : Framebuffer) (vx vy : Nat) (sprite : List Byte) : Draw := Draw.rows ⟨fb, false⟩ vx vy sprite

end Sys2Proof.Machine
end

