-- ==== Sys2Proof/Syntax.lean ====
section
/-! DEFINITION. The 35 instructions of 30_encoding.md R64, one constructor per row of spec/opcode_table.json,
with every field of the row's format (R62), the ignored ones too (R69). -/

namespace Sys2Proof

/-- One constructor per row; the docstring gives the pattern, the spec's mnemonic and the rule of its meaning. -/
inductive Instr where
  /-- `0nnn` other than `00E0` and `00EE`, `SYS nnn` (R84). -/
  | sys (nnn : Addr12)
  /-- `00E0`, `CLS` (R135). -/
  | cls
  /-- `00EE`, `RET` (R85). -/
  | ret
  /-- `1nnn`, `JP nnn` (R86). -/
  | jp (nnn : Addr12)
  /-- `2nnn`, `CALL nnn` (R87). -/
  | call (nnn : Addr12)
  /-- `3xkk`, `SE Vx, kk` (R88). -/
  | seImm (x : Reg) (kk : Byte)
  /-- `4xkk`, `SNE Vx, kk` (R89). -/
  | sneImm (x : Reg) (kk : Byte)
  /-- `5xy0`, `SE Vx, Vy` (R90). -/
  | seReg (x y : Reg)
  /-- `6xkk`, `LD Vx, kk` (R101). -/
  | ldImm (x : Reg) (kk : Byte)
  /-- `7xkk`, `ADD Vx, kk` (R102). -/
  | addImm (x : Reg) (kk : Byte)
  /-- `8xy0`, `LD Vx, Vy` (R103). -/
  | ldReg (x y : Reg)
  /-- `8xy1`, `OR Vx, Vy` (R104). -/
  | orReg (x y : Reg)
  /-- `8xy2`, `AND Vx, Vy` (R105). -/
  | andReg (x y : Reg)
  /-- `8xy3`, `XOR Vx, Vy` (R106). -/
  | xorReg (x y : Reg)
  /-- `8xy4`, `ADD Vx, Vy` (R107). -/
  | addReg (x y : Reg)
  /-- `8xy5`, `SUB Vx, Vy` (R108). -/
  | subReg (x y : Reg)
  /-- `8xy6`, `SHR Vx` (R109); `y` is decoded and ignored (R69). -/
  | shrReg (x y : Reg)
  /-- `8xy7`, `SUBN Vx, Vy` (R110). -/
  | subnReg (x y : Reg)
  /-- `8xyE`, `SHL Vx` (R111); `y` is decoded and ignored (R69). -/
  | shlReg (x y : Reg)
  /-- `9xy0`, `SNE Vx, Vy` (R91). -/
  | sneReg (x y : Reg)
  /-- `Annn`, `LD I, nnn` (R120). -/
  | ldI (nnn : Addr12)
  /-- `Bnnn`, `JP V0, nnn` (R92). -/
  | jpV0 (nnn : Addr12)
  /-- `Cxkk`, `RND Vx, kk` (R112). -/
  | rnd (x : Reg) (kk : Byte)
  /-- `Dxyn`, `DRW Vx, Vy, n` (R136). -/
  | drw (x y : Reg) (n : Nibble)
  /-- `Ex9E`, `SKP Vx` (R145). -/
  | skp (x : Reg)
  /-- `ExA1`, `SKNP Vx` (R146). -/
  | sknp (x : Reg)
  /-- `Fx07`, `LD Vx, DT` (R151). -/
  | ldVxDt (x : Reg)
  /-- `Fx0A`, `LD Vx, K` (R148). -/
  | ldVxK (x : Reg)
  /-- `Fx15`, `LD DT, Vx` (R152). -/
  | ldDtVx (x : Reg)
  /-- `Fx18`, `LD ST, Vx` (R153). -/
  | ldStVx (x : Reg)
  /-- `Fx1E`, `ADD I, Vx` (R121). -/
  | addI (x : Reg)
  /-- `Fx29`, `LD F, Vx` (R122). -/
  | ldF (x : Reg)
  /-- `Fx33`, `LD B, Vx` (R126). -/
  | ldB (x : Reg)
  /-- `Fx55`, `LD [I], Vx` (R128). -/
  | ldMemVx (x : Reg)
  /-- `Fx65`, `LD Vx, [I]` (R130). -/
  | ldVxMem (x : Reg)
  deriving DecidableEq, Repr

end Sys2Proof
end

