-- ==== Sys2Proof/Decode.lean ====
section
/-! DEFINITION. Decoding, total on every word and on any bytes (30_encoding.md R60 to R70), then the encoder, written from
the same formats, and the opcode map of R64 as rows of a mask and a match. -/

namespace Sys2Proof

/-- Why bytes are no instruction. The first five are the reserved words of R66, by family. -/
inductive Reject where
  /-- `5xyN` with `N ≠ 0`. -/
  | family5
  /-- `8xyN` with `N` in 8, 9, A, B, C, D, F. -/
  | family8
  /-- `9xyN` with `N ≠ 0`. -/
  | family9
  /-- `Exkk` with `kk` neither 9E nor A1. -/
  | familyE
  /-- `Fxkk` with `kk` none of the nine sub-codes. -/
  | familyF
  /-- Fewer than the two bytes an instruction has (R60). -/
  | truncated
  deriving DecidableEq, Repr

/-- What bits decode to: an instruction, or a rejection by name. -/
inductive Decoded where
  | instr (i : Instr)
  | reserved (r : Reject)
  deriving DecidableEq, Repr

/-! Fields (R61). -/

/-- `op = w[15:12]`. -/
def opField (w : Word) : BitVec 4 := w.extractLsb' 12 4
/-- `x = w[11:8]`. -/
def xField (w : Word) : Reg := w.extractLsb' 8 4
/-- `y = w[7:4]`. -/
def yField (w : Word) : Reg := w.extractLsb' 4 4
/-- `n = w[3:0]`. -/
def nField (w : Word) : Nibble := w.extractLsb' 0 4
/-- `kk = w[7:0]`. -/
def kkField (w : Word) : Byte := w.extractLsb' 0 8
/-- `nnn = w[11:0]`. -/
def nnnField (w : Word) : Addr12 := w.extractLsb' 0 12

/-! The decoder: family by the high nibble, then the sub-code (R63). -/

/-- Family 0 has no reserved word (R68). -/
def decodeFamily0 (w : Word) : Decoded :=
  if w = 0x00E0 then .instr .cls
  else if w = 0x00EE then .instr .ret
  else .instr (.sys (nnnField w))

/-- Families 5 and 9: the low nibble must be 0 (R67). -/
def decodeLowNibble0 (w : Word) (i : Reg → Reg → Instr) (r : Reject) : Decoded :=
  if nField w = 0 then .instr (i (xField w) (yField w)) else .reserved r

/-- Family 8, by the low nibble (R65). -/
def decodeFamily8 (x y : Reg) (n : Nibble) : Decoded :=
  match n.toNat with
  | 0x0 => .instr (.ldReg x y)
  | 0x1 => .instr (.orReg x y)
  | 0x2 => .instr (.andReg x y)
  | 0x3 => .instr (.xorReg x y)
  | 0x4 => .instr (.addReg x y)
  | 0x5 => .instr (.subReg x y)
  | 0x6 => .instr (.shrReg x y)
  | 0x7 => .instr (.subnReg x y)
  | 0xE => .instr (.shlReg x y)
  | _ => .reserved .family8

/-- Family E, by the low byte. -/
def decodeFamilyE (x : Reg) (kk : Byte) : Decoded :=
  match kk.toNat with
  | 0x9E => .instr (.skp x)
  | 0xA1 => .instr (.sknp x)
  | _ => .reserved .familyE

/-- Family F, by the low byte. -/
def decodeFamilyF (x : Reg) (kk : Byte) : Decoded :=
  match kk.toNat with
  | 0x07 => .instr (.ldVxDt x)
  | 0x0A => .instr (.ldVxK x)
  | 0x15 => .instr (.ldDtVx x)
  | 0x18 => .instr (.ldStVx x)
  | 0x1E => .instr (.addI x)
  | 0x29 => .instr (.ldF x)
  | 0x33 => .instr (.ldB x)
  | 0x55 => .instr (.ldMemVx x)
  | 0x65 => .instr (.ldVxMem x)
  | _ => .reserved .familyF

/-- Every one of the 65536 words decodes to one instruction or to a reserved family (R63). -/
def decodeWord (w : Word) : Decoded :=
  match (opField w).toNat with
  | 0x0 => decodeFamily0 w
  | 0x1 => .instr (.jp (nnnField w))
  | 0x2 => .instr (.call (nnnField w))
  | 0x3 => .instr (.seImm (xField w) (kkField w))
  | 0x4 => .instr (.sneImm (xField w) (kkField w))
  | 0x5 => decodeLowNibble0 w .seReg .family5
  | 0x6 => .instr (.ldImm (xField w) (kkField w))
  | 0x7 => .instr (.addImm (xField w) (kkField w))
  | 0x8 => decodeFamily8 (xField w) (yField w) (nField w)
  | 0x9 => decodeLowNibble0 w .sneReg .family9
  | 0xA => .instr (.ldI (nnnField w))
  | 0xB => .instr (.jpV0 (nnnField w))
  | 0xC => .instr (.rnd (xField w) (kkField w))
  | 0xD => .instr (.drw (xField w) (yField w) (nField w))
  | 0xE => decodeFamilyE (xField w) (kkField w)
  | _ => decodeFamilyF (xField w) (kkField w)

/-- The 16-bit word of two bytes, the more significant byte at the lower address (R60, 20_memory.md R43). -/
def wordOfBytes (hi lo : Byte) : Word := hi ++ lo

/-- The byte at the lower address. -/
def highByte (w : Word) : Byte := w.extractLsb' 8 8

/-- The byte at the higher address. -/
def lowByte (w : Word) : Byte := w.extractLsb' 0 8

/-- Decoding of any bytes: the first two are the instruction. -/
def decodeBytes : List Byte → Decoded
  | hi :: lo :: _ => decodeWord (wordOfBytes hi lo)
  | _ => .reserved .truncated

/-- The instruction read from the bits `w` of a row of spec/opcode_table.json, of which `nbits` are given: the bits above
are 0, the word is laid out as the hardware stores it and given to the decoder. -/
def decodeTableWord (nbits w : Nat) : Option Instr :=
  let word : Word := BitVec.ofNat 16 (w % 2 ^ nbits)
  match decodeBytes [highByte word, lowByte word] with
  | .instr i => some i
  | .reserved _ => none

/-! The encoder, format by format (R62). -/

/-- Format `NNN`. -/
def fmtNNN (op : BitVec 4) (nnn : Addr12) : Word := op ++ nnn
/-- Formats `XKK` and, with a sub-code for `kk`, `X`. -/
def fmtXKK (op : BitVec 4) (x : Reg) (kk : Byte) : Word := op ++ x ++ kk
/-- Formats `XYN` and, with a sub-code for `n`, `XY`. -/
def fmtXYN (op : BitVec 4) (x y : Reg) (n : Nibble) : Word := op ++ x ++ y ++ n

/-- The word of an instruction (R64). -/
def encode : Instr → Word
  | .sys nnn => fmtNNN 0x0 nnn
  | .cls => 0x00E0
  | .ret => 0x00EE
  | .jp nnn => fmtNNN 0x1 nnn
  | .call nnn => fmtNNN 0x2 nnn
  | .seImm x kk => fmtXKK 0x3 x kk
  | .sneImm x kk => fmtXKK 0x4 x kk
  | .seReg x y => fmtXYN 0x5 x y 0x0
  | .ldImm x kk => fmtXKK 0x6 x kk
  | .addImm x kk => fmtXKK 0x7 x kk
  | .ldReg x y => fmtXYN 0x8 x y 0x0
  | .orReg x y => fmtXYN 0x8 x y 0x1
  | .andReg x y => fmtXYN 0x8 x y 0x2
  | .xorReg x y => fmtXYN 0x8 x y 0x3
  | .addReg x y => fmtXYN 0x8 x y 0x4
  | .subReg x y => fmtXYN 0x8 x y 0x5
  | .shrReg x y => fmtXYN 0x8 x y 0x6
  | .subnReg x y => fmtXYN 0x8 x y 0x7
  | .shlReg x y => fmtXYN 0x8 x y 0xE
  | .sneReg x y => fmtXYN 0x9 x y 0x0
  | .ldI nnn => fmtNNN 0xA nnn
  | .jpV0 nnn => fmtNNN 0xB nnn
  | .rnd x kk => fmtXKK 0xC x kk
  | .drw x y n => fmtXYN 0xD x y n
  | .skp x => fmtXKK 0xE x 0x9E
  | .sknp x => fmtXKK 0xE x 0xA1
  | .ldVxDt x => fmtXKK 0xF x 0x07
  | .ldVxK x => fmtXKK 0xF x 0x0A
  | .ldDtVx x => fmtXKK 0xF x 0x15
  | .ldStVx x => fmtXKK 0xF x 0x18
  | .addI x => fmtXKK 0xF x 0x1E
  | .ldF x => fmtXKK 0xF x 0x29
  | .ldB x => fmtXKK 0xF x 0x33
  | .ldMemVx x => fmtXKK 0xF x 0x55
  | .ldVxMem x => fmtXKK 0xF x 0x65

/-- The two bytes of an instruction, in address order. -/
def encodeBytes (i : Instr) : List Byte := [highByte (encode i), lowByte (encode i)]

/-! The opcode map (R64): the independent description the decoder is held against. -/

/-- One row of the opcode map: a word `w` matches it when `w and mask = code`. -/
structure Row where
  mnemonic : String
  mask : Word
  code : Word
  deriving DecidableEq, Repr

/-- The mnemonic of a constructor's row, as spec/opcode_table.json spells it. -/
def mnemonicOf : Instr → String
  | .sys _ => "SYS_nnn"
  | .cls => "CLS"
  | .ret => "RET"
  | .jp _ => "JP_nnn"
  | .call _ => "CALL_nnn"
  | .seImm _ _ => "SE_Vx__kk"
  | .sneImm _ _ => "SNE_Vx__kk"
  | .seReg _ _ => "SE_Vx__Vy"
  | .ldImm _ _ => "LD_Vx__kk"
  | .addImm _ _ => "ADD_Vx__kk"
  | .ldReg _ _ => "LD_Vx__Vy"
  | .orReg _ _ => "OR_Vx__Vy"
  | .andReg _ _ => "AND_Vx__Vy"
  | .xorReg _ _ => "XOR_Vx__Vy"
  | .addReg _ _ => "ADD_Vx__Vy"
  | .subReg _ _ => "SUB_Vx__Vy"
  | .shrReg _ _ => "SHR_Vx"
  | .subnReg _ _ => "SUBN_Vx__Vy"
  | .shlReg _ _ => "SHL_Vx"
  | .sneReg _ _ => "SNE_Vx__Vy"
  | .ldI _ => "LD_I__nnn"
  | .jpV0 _ => "JP_V0__nnn"
  | .rnd _ _ => "RND_Vx__kk"
  | .drw _ _ _ => "DRW_Vx__Vy__n"
  | .skp _ => "SKP_Vx"
  | .sknp _ => "SKNP_Vx"
  | .ldVxDt _ => "LD_Vx__DT"
  | .ldVxK _ => "LD_Vx__K"
  | .ldDtVx _ => "LD_DT__Vx"
  | .ldStVx _ => "LD_ST__Vx"
  | .addI _ => "ADD_I__Vx"
  | .ldF _ => "LD_F__Vx"
  | .ldB _ => "LD_B__Vx"
  | .ldMemVx _ => "LD__I___Vx"
  | .ldVxMem _ => "LD_Vx___I"

/-- The rows with the full mask, tried first: "the row with the larger mask wins" (R63). -/
def fixedRows : List Row :=
  [⟨"CLS", 0xFFFF, 0x00E0⟩, ⟨"RET", 0xFFFF, 0x00EE⟩]

/-- The other rows; no two of them match one word. -/
def fieldRows : List Row :=
  [⟨"SYS_nnn", 0xF000, 0x0000⟩, ⟨"JP_nnn", 0xF000, 0x1000⟩, ⟨"CALL_nnn", 0xF000, 0x2000⟩,
   ⟨"SE_Vx__kk", 0xF000, 0x3000⟩, ⟨"SNE_Vx__kk", 0xF000, 0x4000⟩, ⟨"SE_Vx__Vy", 0xF00F, 0x5000⟩,
   ⟨"LD_Vx__kk", 0xF000, 0x6000⟩, ⟨"ADD_Vx__kk", 0xF000, 0x7000⟩, ⟨"LD_Vx__Vy", 0xF00F, 0x8000⟩,
   ⟨"OR_Vx__Vy", 0xF00F, 0x8001⟩, ⟨"AND_Vx__Vy", 0xF00F, 0x8002⟩, ⟨"XOR_Vx__Vy", 0xF00F, 0x8003⟩,
   ⟨"ADD_Vx__Vy", 0xF00F, 0x8004⟩, ⟨"SUB_Vx__Vy", 0xF00F, 0x8005⟩, ⟨"SHR_Vx", 0xF00F, 0x8006⟩,
   ⟨"SUBN_Vx__Vy", 0xF00F, 0x8007⟩, ⟨"SHL_Vx", 0xF00F, 0x800E⟩, ⟨"SNE_Vx__Vy", 0xF00F, 0x9000⟩,
   ⟨"LD_I__nnn", 0xF000, 0xA000⟩, ⟨"JP_V0__nnn", 0xF000, 0xB000⟩, ⟨"RND_Vx__kk", 0xF000, 0xC000⟩,
   ⟨"DRW_Vx__Vy__n", 0xF000, 0xD000⟩, ⟨"SKP_Vx", 0xF0FF, 0xE09E⟩, ⟨"SKNP_Vx", 0xF0FF, 0xE0A1⟩,
   ⟨"LD_Vx__DT", 0xF0FF, 0xF007⟩, ⟨"LD_Vx__K", 0xF0FF, 0xF00A⟩, ⟨"LD_DT__Vx", 0xF0FF, 0xF015⟩,
   ⟨"LD_ST__Vx", 0xF0FF, 0xF018⟩, ⟨"ADD_I__Vx", 0xF0FF, 0xF01E⟩, ⟨"LD_F__Vx", 0xF0FF, 0xF029⟩,
   ⟨"LD_B__Vx", 0xF0FF, 0xF033⟩, ⟨"LD__I___Vx", 0xF0FF, 0xF055⟩, ⟨"LD_Vx___I", 0xF0FF, 0xF065⟩]

/-- The 35 rows. -/
def opcodeTable : List Row := fixedRows ++ fieldRows

/-- Whether a word matches a row. -/
def Row.matchesWord (r : Row) (w : Word) : Bool := w &&& r.mask == r.code

/-- The row a word selects (R63): the first match, the full-mask rows being tried first. -/
def selectRow (w : Word) : Option Row := opcodeTable.find? (·.matchesWord w)

end Sys2Proof
end

