-- ==== Sys2Proof/Machine/Memory.lean ====
section
/-! DEFINITION. `MEM` (20_memory.md): the reset contents, reading and writing a cell, the canonical form, and the access
primitives `MemRead` and `MemWrite` with their range check (R41, R42). -/

namespace Sys2Proof.Machine

/-- The default `FONT[0..79]` (00_scope.md R10, 10_state.md R31), sixteen glyphs of five rows; the byte values are the
spec's default for a parameter, which it supplies from general knowledge (PRESUMED, log entry 3). -/
def fontTable : List Byte :=
  [0xF0, 0x90, 0x90, 0x90, 0xF0, 0x20, 0x60, 0x20, 0x20, 0x70, 0xF0, 0x10, 0xF0, 0x80, 0xF0, 0xF0, 0x10, 0xF0, 0x10, 0xF0,
   0x90, 0x90, 0xF0, 0x10, 0x10, 0xF0, 0x80, 0xF0, 0x10, 0xF0, 0xF0, 0x80, 0xF0, 0x90, 0xF0, 0xF0, 0x10, 0x20, 0x40, 0x40] ++
  [0xF0, 0x90, 0xF0, 0x90, 0xF0, 0xF0, 0x90, 0xF0, 0x10, 0xF0, 0xF0, 0x90, 0xF0, 0x90, 0x90, 0xE0, 0x90, 0xE0, 0x90, 0xE0,
   0xF0, 0x80, 0x80, 0x80, 0xF0, 0xE0, 0x90, 0x90, 0x90, 0xE0, 0xF0, 0x80, 0xF0, 0x80, 0xF0, 0xF0, 0x80, 0xF0, 0x80, 0x80]

/-- `FONT_BASE` (00_scope.md R9). -/
def fontBase : Nat := 0x000

/-- The default of the parameter `FONT`. -/
def defaultFont : Font := ⟨fontTable.toArray, by decide⟩

/-- What an address that is not listed reads as: its content after Reset with the default font (10_state.md R35), that font at
`FONT_BASE` and 0 elsewhere. With another font its bytes are listed (`Memory.installFont`). -/
def unlistedByte (a : Nat) : Byte :=
  if fontBase ≤ a then fontTable.getD (a - fontBase) 0 else 0

/-- The byte at an address. -/
def Memory.read : Memory → Nat → Byte
  | [], a => unlistedByte a
  | c :: rest, a => if c.1 = a then c.2 else Memory.read rest a

/-- A listed cell put in its place. -/
def Memory.insert : Memory → Nat → Byte → Memory
  | [], a, v => [(a, v)]
  | c :: rest, a, v => if a < c.1 then (a, v) :: c :: rest else c :: Memory.insert rest a v

/-- Memory without a listed cell for `a`. -/
def Memory.erase (m : Memory) (a : Nat) : Memory := m.filter (fun c => c.1 != a)

/-- Store of a byte; writing what an unlisted address reads as unlists it, so that equal memories are equal data. -/
def Memory.write (m : Memory) (a : Nat) (v : Byte) : Memory :=
  if v = unlistedByte a then m.erase a else (m.erase a).insert a v

/-- The canonical form: addresses strictly rising, inside the 4096 cells, and no cell that holds what an unlisted address
reads as. -/
abbrev Memory.wf (m : Memory) : Prop :=
  m.Pairwise (fun c d => c.1 < d.1) ∧ ∀ c ∈ m, c.1 < Config.memSize ∧ c.2 ≠ unlistedByte c.1

/-- The `n` bytes at `a, a+1, ...`, in address order. -/
def Memory.readBytes (m : Memory) (a : Nat) : Nat → List Byte
  | 0 => []
  | n + 1 => m.read a :: Memory.readBytes m (a + 1) n

/-- Stores of bytes at `a, a+1, ...`, in address order. -/
def Memory.writeBytes : Memory → Nat → List Byte → Memory
  | m, _, [] => m
  | m, a, b :: bs => Memory.writeBytes (m.write a b) (a + 1) bs

/-- `MEM[FONT_BASE + i] <- FONT[i]` for `i` in `0..79` (70_reset_and_hazards.md R195). -/
def Memory.installFont (m : Memory) (font : Font) : Memory := m.writeBytes fontBase font.toList

/-- Whether a transfer of `n` bytes at `base` stays in memory. Addresses are integers and never wrap (R49); a transfer of
no bytes accesses nothing. -/
def spanOk (base n : Nat) : Bool := n == 0 || base + n ≤ Config.memSize

/-- The loads of one instruction, all checked before the first: the fault records the highest address (R41, R165). -/
def memReadSpan (m : Memory) (base n : Nat) : Except Fault (List Byte) :=
  if spanOk base n then .ok (m.readBytes base n) else .error (.addressOutOfRange (base + n - 1))

/-- The stores of one instruction, all checked before the first (R42). -/
def memWriteSpan (m : Memory) (base : Nat) (bs : List Byte) : Except Fault Memory :=
  if spanOk base bs.length then .ok (m.writeBytes base bs) else .error (.addressOutOfRange (base + bs.length - 1))

/-- The two bytes of an instruction word, big-endian; the fault records the address of the first (R43). -/
def memReadWord (m : Memory) (a : Nat) : Except Fault Word :=
  if spanOk a 2 then .ok (wordOfBytes (m.read a) (m.read (a + 1))) else .error (.addressOutOfRange a)

end Sys2Proof.Machine
end

