-- ==== Sys2Proof/Machine/Ops.lean ====
section
/-! DEFINITION. The named operations on the state: one home for every register, the call stack (10_state.md R25), the
keypad, and the one way an operation ends with an error (60_exceptions.md R168, R177). -/

namespace Sys2Proof.Machine

/-! Registers. -/

/-- `V[r]`. -/
def State.getV (s : State) (r : Reg) : Byte := s.v[r.toNat]'r.isLt

/-- `V[r] <- b`. -/
def State.setV (s : State) (r : Reg) (b : Byte) : State := { s with v := s.v.set r.toNat b r.isLt }

/-- The register that is the flag (R21). -/
def flagReg : Reg := 0xF

/-- `VF`. -/
def State.getVF (s : State) : Byte := s.getV flagReg

/-- `VF <- b2n(c)`: a flag is the number 0 or 1. -/
def State.setVF (s : State) (c : Bool) : State := s.setV flagReg (if c then 1 else 0)

/-- `I <- w`. -/
def State.setI (s : State) (w : Word) : State := { s with i := w }

/-- `pc <- w`. -/
def State.setPc (s : State) (w : Word) : State := { s with pc := w }

/-- The stack's valid entries. -/
def State.setStack (s : State) (l : List Word) : State := { s with stack := l }

/-- `DT <- b`. -/
def State.setDt (s : State) (b : Byte) : State := { s with dt := b }

/-- `ST <- b`. -/
def State.setSt (s : State) (b : Byte) : State := { s with st := b }

/-- `KEY[k]`. -/
def State.getKey (s : State) (k : Reg) : Bool := s.keys[k.toNat]'k.isLt

/-- `KEY[k] <- b`. -/
def State.setKey (s : State) (k : Reg) (b : Bool) : State := { s with keys := s.keys.set k.toNat b k.isLt }

/-- The framebuffer. -/
def State.setFb (s : State) (fb : Framebuffer) : State := { s with fb := fb }

/-- The memory. -/
def State.setMem (s : State) (m : Memory) : State := { s with mem := m }

/-- `MODE <- m`. -/
def State.setMode (s : State) (m : Mode) : State := { s with mode := m }

/-- `WAITX <- r`. -/
def State.setWaitx (s : State) (r : Reg) : State := { s with waitx := r }

/-- One free value has been drawn: the next draw is another one (log entry 4). -/
def State.countDraw (s : State) : State := { s with draws := s.draws + 1 }

/-! Reset. -/

/-- The state right after Reset (10_state.md R35), for a value of the parameter `FONT` (00_scope.md R10): it shows in memory
alone. -/
def State.resetWith (font : Font) : State := State.reset.setMem (State.reset.mem.installFont font)

/-! The call stack. -/

/-- `SP`: the number of valid entries. -/
def State.sp (s : State) : Nat := s.stack.length

/-- The valid entry `STACK[k]`, 0 being the oldest. -/
def State.stackEntry (s : State) (k : Nat) : Option Word := s.stack.reverse[k]?

/-- `Push(v)` (R25): refused when the stack is at its bound, before any write. -/
def State.push (s : State) (v : Word) : Except Fault State :=
  if Config.stackDepth ≤ s.sp then .error .stackOverflow else .ok (s.setStack (v :: s.stack))

/-- `Pop()` (R25): the newest entry and the state without it. -/
def State.pop (s : State) : Except Fault (Word × State) :=
  match s.stack with
  | [] => .error .stackUnderflow
  | v :: rest => .ok (v, s.setStack rest)

/-! The program counter. Every meaning is the execute part of a step, entered with `pc = npc` (40 R80). -/

/-- The fetch advance, and equally a skip: 2 more, modulo 65536. -/
def State.advance (s : State) : State := s.setPc (s.pc + 2)

/-- `pc <- pc0`: the address of the instruction being executed, from `npc`. -/
def State.retreat (s : State) : State := s.setPc (s.pc - 2)

/-- The skip of the next instruction, on a condition. -/
def State.skipIf (s : State) (c : Bool) : State := if c then s.advance else s

/-! The keypad. -/

/-- The sixteen indices. -/
def allRegs : List Reg := (List.range 16).map (BitVec.ofNat 4)

/-- The pressed keys, in rising order. -/
def State.pressedKeys (s : State) : List Reg := allRegs.filter s.getKey

/-- `KeySelect(KEY)` (44 R149): none when no key is pressed, the pressed key when it is alone, and some pressed key, a free
choice, when there are several. -/
def State.keySelect (s : State) : Option Reg :=
  match s.pressedKeys with
  | [] => none
  | [k] => some k
  | k :: k' :: ks => some ((k :: k' :: ks).getD (Config.keyChoice s.draws % (ks.length + 2)) k)

/-- `V[r] <- KeySelect(KEY)`, for a selected key. -/
def State.recordKey (s : State) (r k : Reg) : State := (s.setV r (k.setWidth 8)).countDraw

/-! The end of an operation. -/

/-- `raise f`: TAKING AN EXCEPTION on this machine (R168, R177). The operation ends with the outcome `f`, nothing is saved, no
mode changes, no handler is entered, and the machine's state stays what it was before the operation. There is no return
from an exception (R178). -/
def raise (f : Fault) : Result := .fault f

end Sys2Proof.Machine
end

