-- ==== Sys2Proof/Machine/Operands.lean ====
section
/-! DEFINITION. The operand forms: an address `nnn`, the register range `V[0..x]`, the decimal digits, and the address of a
transfer, which is always `I + k` (42_index_and_memory.md R132). -/

namespace Sys2Proof.Machine

/-- `zext_16(nnn)`. -/
def target (nnn : Addr12) : Word := nnn.setWidth 16

/-- The base address of a transfer, as an integer (20_memory.md R49). -/
def State.base (s : State) : Nat := s.i.toNat

/-- How many registers the range `V[0..x]` has. -/
def rangeCount (x : Reg) : Nat := x.toNat + 1

/-- The bytes of `V[0..x]`, `V[0]` first. -/
def State.regRange (s : State) (x : Reg) : List Byte :=
  (List.range (rangeCount x)).map fun k => s.getV (BitVec.ofNat 4 k)

/-- `V[k], V[k+1], ... <- bytes`. -/
def State.loadRegs (s : State) (k : Nat) : List Byte → State
  | [] => s
  | b :: bs => State.loadRegs (s.setV (BitVec.ofNat 4 k) b) (k + 1) bs

/-- The three decimal digits, hundreds first (R126). -/
def bcdDigits (b : Byte) : List Byte :=
  [BitVec.ofNat 8 (b.toNat / 100), BitVec.ofNat 8 (b.toNat / 10 % 10), BitVec.ofNat 8 (b.toNat % 10)]

/-- Five times a byte, exact in 16 bits (R122). -/
def glyphAddress (b : Byte) : Word := BitVec.ofNat 16 (5 * b.toNat)

end Sys2Proof.Machine
end

