-- ==== Sys2Proof/Machine/Alu.lean ====
section
/-! DEFINITION. Register load, ALU and random instructions (41_load_and_alu.md R101 to R112). Operands are read from the
state on entry; where a flag is written, it is written after the result (R100), so that with `x = F` the flag stays. -/

namespace Sys2Proof.Machine

/-- A result in `V[x]`, then the flag in `VF` (R100). -/
def State.setResultFlag (s : State) (x : Reg) (result : Byte) (flag : Bool) : State := (s.setV x result).setVF flag

/-- `LD Vx, kk` (R101). -/
def execLdImm (x : Reg) (kk : Byte) (s : State) : Result := .next (s.setV x kk)

/-- `ADD Vx, kk` (R102): no flag. -/
def execAddImm (x : Reg) (kk : Byte) (s : State) : Result := .next (s.setV x (sum8 (s.getV x) kk))

/-- `LD Vx, Vy` (R103). -/
def execLdReg (x y : Reg) (s : State) : Result := .next (s.setV x (s.getV y))

/-- `OR Vx, Vy` (R104): `VF` is not reset. -/
def execOrReg (x y : Reg) (s : State) : Result := .next (s.setV x (s.getV x ||| s.getV y))

/-- `AND Vx, Vy` (R105): `VF` is not reset. -/
def execAndReg (x y : Reg) (s : State) : Result := .next (s.setV x (s.getV x &&& s.getV y))

/-- `XOR Vx, Vy` (R106): `VF` is not reset. -/
def execXorReg (x y : Reg) (s : State) : Result := .next (s.setV x (s.getV x ^^^ s.getV y))

/-- `ADD Vx, Vy` (R107). -/
def execAddReg (x y : Reg) (s : State) : Result :=
  .next (s.setResultFlag x (sum8 (s.getV x) (s.getV y)) (carry (s.getV x) (s.getV y)))

/-- `SUB Vx, Vy` (R108). -/
def execSubReg (x y : Reg) (s : State) : Result :=
  .next (s.setResultFlag x (diff8 (s.getV x) (s.getV y)) (greater (s.getV x) (s.getV y)))

/-- `SHR Vx` (R109): `y` is ignored. -/
def execShrReg (x _y : Reg) (s : State) : Result :=
  .next (s.setResultFlag x (shr1 (s.getV x)) (lowBit (s.getV x)))

/-- `SUBN Vx, Vy` (R110). -/
def execSubnReg (x y : Reg) (s : State) : Result :=
  .next (s.setResultFlag x (diff8 (s.getV y) (s.getV x)) (greater (s.getV y) (s.getV x)))

/-- `SHL Vx` (R111): `y` is ignored; the flag is 0 or 1. -/
def execShlReg (x _y : Reg) (s : State) : Result :=
  .next (s.setResultFlag x (shl1 (s.getV x)) (highBit (s.getV x)))

/-- `RND Vx, kk` (R112): `rnd` is a free value (log entry 4). -/
def execRnd (x : Reg) (kk : Byte) (s : State) : Result :=
  .next (s.setV x (kk &&& Config.rnd s.draws)).countDraw

end Sys2Proof.Machine
end

