-- ==== Sys2Proof/Machine/ControlFlow.lean ====
section
/-! DEFINITION. The control-transfer instructions (40_step_and_control_flow.md R84 to R92), each the execute part of a step,
entered with `pc = npc`. -/

namespace Sys2Proof.Machine

/-- `SYS nnn` (R84): ignored. -/
def execSys (_nnn : Addr12) (s : State) : Result := .next s

/-- `RET` (R85). -/
def execRet (s : State) : Result :=
  match s.pop with
  | .error f => raise f
  | .ok (v, s') => .next (s'.setPc v)

/-- `JP nnn` (R86). -/
def execJp (nnn : Addr12) (s : State) : Result := .next (s.setPc (target nnn))

/-- `CALL nnn` (R87): the return address is `npc`. -/
def execCall (nnn : Addr12) (s : State) : Result :=
  match s.push s.pc with
  | .error f => raise f
  | .ok s' => .next (s'.setPc (target nnn))

/-- `SE Vx, kk` (R88). -/
def execSeImm (x : Reg) (kk : Byte) (s : State) : Result := .next (s.skipIf (s.getV x == kk))

/-- `SNE Vx, kk` (R89). -/
def execSneImm (x : Reg) (kk : Byte) (s : State) : Result := .next (s.skipIf (s.getV x != kk))

/-- `SE Vx, Vy` (R90). -/
def execSeReg (x y : Reg) (s : State) : Result := .next (s.skipIf (s.getV x == s.getV y))

/-- `SNE Vx, Vy` (R91). -/
def execSneReg (x y : Reg) (s : State) : Result := .next (s.skipIf (s.getV x != s.getV y))

/-- `JP V0, nnn` (R92): the sum is not reduced to 12 bits. -/
def execJpV0 (nnn : Addr12) (s : State) : Result :=
  .next (s.setPc (target nnn + (s.getV 0).setWidth 16))

end Sys2Proof.Machine
end

