-- ==== Sys2Proof/Machine/Display.lean ====
section
/-! DEFINITION. The display instructions (43_display.md R135, R136). -/

namespace Sys2Proof.Machine

/-- `CLS` (R135): `VF` is not written. -/
def execCls (s : State) : Result := .next (s.setFb Framebuffer.clear)

/-- `DRW Vx, Vy, n` (R136): the coordinates and `I` are read first, the range is checked before any pixel or `VF` is written,
and the collision goes to `VF` last. -/
def execDrw (x y : Reg) (n : Nibble) (s : State) : Result :=
  match memReadSpan s.mem s.base n.toNat with
  | .error f => raise f
  | .ok sprite =>
    let d := drawSprite s.fb (s.getV x).toNat (s.getV y).toNat sprite
    .next ((s.setFb d.fb).setVF d.collision)

end Sys2Proof.Machine
end

