-- ==== Sys2Proof/Machine/Index.lean ====
section
/-! DEFINITION. The index-register and memory-transfer instructions (42_index_and_memory.md R120 to R130). A transfer checks
all its addresses before it writes anything and leaves `I` unchanged (R132). -/

namespace Sys2Proof.Machine

/-- Stores of `bytes` at `I, I+1, ...`, or the range fault. -/
def storeAtI (bytes : List Byte) (s : State) : Result :=
  match memWriteSpan s.mem s.base bytes with
  | .error f => raise f
  | .ok m => .next (s.setMem m)

/-- `LD I, nnn` (R120). -/
def execLdI (nnn : Addr12) (s : State) : Result := .next (s.setI (target nnn))

/-- `ADD I, Vx` (R121): modulo 65536, no flag. -/
def execAddI (x : Reg) (s : State) : Result := .next (s.setI (s.i + (s.getV x).setWidth 16))

/-- `LD F, Vx` (R122): the whole of `V[x]`, no masking. -/
def execLdF (x : Reg) (s : State) : Result := .next (s.setI (glyphAddress (s.getV x)))

/-- `LD B, Vx` (R126). -/
def execLdB (x : Reg) (s : State) : Result := storeAtI (bcdDigits (s.getV x)) s

/-- `LD [I], Vx` (R128). -/
def execLdMemVx (x : Reg) (s : State) : Result := storeAtI (s.regRange x) s

/-- `LD Vx, [I]` (R130). -/
def execLdVxMem (x : Reg) (s : State) : Result :=
  match memReadSpan s.mem s.base (rangeCount x) with
  | .error f => raise f
  | .ok bytes => .next (s.loadRegs 0 bytes)

end Sys2Proof.Machine
end

