-- ==== Sys2Proof/Machine/KeypadTimers.lean ====
section
/-! DEFINITION. The keypad and timer instructions and the waiting step (44_keypad_and_timers.md R145 to R153). -/

namespace Sys2Proof.Machine

/-- A skip on the state of key `V[x]`, whose whole value is the index: above 0xF it is a fault (R147). -/
def skipOnKey (x : Reg) (pressed : Bool) (s : State) : Result :=
  let k := s.getV x
  if 0xF < k.toNat then raise (.keyIndexOutOfRange k)
  else .next (s.skipIf (s.getKey (k.setWidth 4) == pressed))

/-- `SKP Vx` (R145). -/
def execSkp (x : Reg) (s : State) : Result := skipOnKey x true s

/-- `SKNP Vx` (R146). -/
def execSknp (x : Reg) (s : State) : Result := skipOnKey x false s

/-- `LD Vx, K` (R148): a pressed key is recorded at once; with none pressed `pc` goes back and the wait begins. -/
def execLdVxK (x : Reg) (s : State) : Result :=
  match s.keySelect with
  | some k => .next (s.recordKey x k)
  | none => .next ((s.retreat.setMode .waitingForKey).setWaitx x)

/-- The waiting step (R150): no fetch; a pressed key ends the wait and moves `pc` past the `Fx0A`. -/
def waitingStep (s : State) : Result :=
  match s.keySelect with
  | some k => .next ((s.recordKey s.waitx k).advance.setMode .running)
  | none => .next s

/-- `LD Vx, DT` (R151). -/
def execLdVxDt (x : Reg) (s : State) : Result := .next (s.setV x s.dt)

/-- `LD DT, Vx` (R152). -/
def execLdDtVx (x : Reg) (s : State) : Result := .next (s.setDt (s.getV x))

/-- `LD ST, Vx` (R153). -/
def execLdStVx (x : Reg) (s : State) : Result := .next (s.setSt (s.getV x))

end Sys2Proof.Machine
end

