-- ==== Sys2Proof/Machine/Fetch.lean ====
section
/-! DEFINITION. Instruction fetch (20_memory.md R43), what a step does on a reserved word (30_encoding.md R66), the
diagnostic it reports (60_exceptions.md R172), and an instruction placed where the next fetch reads. -/

namespace Sys2Proof.Machine

/-- The word at `pc0`, or the range fault. -/
def fetch (s : State) : Except Fault Word := memReadWord s.mem s.pc.toNat

/-- A reserved word is a no-op: the fetch advance and nothing else (R66). -/
def reservedStep (s : State) : Result := .next s.advance

/-- The diagnostic a step from `s` reports beside its outcome, `UnhandledOpcode(w)`, if it fetches a reserved word (R172).
It is no state: nothing remembers it (log entry 8). -/
def unhandledOpcode (s : State) : Option Word :=
  match s.mode, fetch s with
  | .running, .ok w =>
    match decodeWord w with
    | .reserved _ => some w
    | .instr _ => none
  | _, _ => none

/-- `s` with the word `w` stored, big-endian, where the next step fetches. The next step fetches only in `RUNNING` and only
from a `pc` that has two bytes of memory, so both are made so; from `State.reset` neither changes (log entry 10). -/
def placeWord (s : State) (w : Word) : State :=
  let pc := if spanOk s.pc.toNat 2 then s.pc else Config.progBase
  ((s.setMode .running).setPc pc).setMem
    (s.mem.writeBytes pc.toNat [highByte w, lowByte w])

end Sys2Proof.Machine
end

