-- ==== Sys2Proof/Machine/Cycle.lean ====
section
/-! DEFINITION. The RUNNING step (40_step_and_control_flow.md R80): fetch, advance, decode, execute. -/

namespace Sys2Proof.Machine

/-- What a fetched word does: the advance comes before the execution. -/
def runWord (s : State) (w : Word) : Result :=
  match decodeWord w with
  | .reserved _ => reservedStep s
  | .instr i => exec i s.advance

/-- Step in `MODE = RUNNING`. -/
def runningStep (s : State) : Result :=
  match fetch s with
  | .error f => raise f
  | .ok w => runWord s w

/-- The instruction the next fetch would give, if there is one. -/
def fetchedInstr (s : State) : Option Instr :=
  match fetch s with
  | .error _ => none
  | .ok w =>
    match decodeWord w with
    | .reserved _ => none
    | .instr i => some i

end Sys2Proof.Machine
end

