-- ==== Sys2Proof/Machine/Step.lean ====
section
/-! DEFINITION. The step (40_step_and_control_flow.md R81): dispatch on `MODE`. -/

namespace Sys2Proof.Machine

/-- One step. `next`: the spec's outcome `Ok`, with or without the diagnostic `unhandledOpcode s`; `fault`: the outcome
`Fault(kind)`, after which the machine's state is still `s` (R82, R168). -/
def step (s : State) : Host.Outcome State Fault Refusal :=
  match s.mode with
  | .running => runningStep s
  | .waitingForKey => waitingStep s

/-- `s` with the instruction whose bits are `w` (a row of the table gives `nbits` of them, those above are 0) stored where
the next step fetches. -/
def State.withFetchWord (s : State) (nbits w : Nat) : State := placeWord s (BitVec.ofNat 16 (w % 2 ^ nbits))

end Sys2Proof.Machine
end

