-- ==== Sys2Proof/Machine/HostOps.lean ====
section
/-! DEFINITION. The seven host operations (60_exceptions.md R180): Reset, LoadROM, Step, Tick, KeySet, ReadFramebuffer,
ReadSound. They are atomic and totally ordered, in any order (00_scope.md R16, R181), so an interleaving is a list of them.
Tick and KeySet happen between steps and are no part of `step` (log entry 9). -/

namespace Sys2Proof.Machine

/-- The host's moves, each with its inputs (R180). Reset takes the parameter `FONT`, which one machine holds fixed; the model
leaves it free at every Reset (log entry 3). A key index has 4 bits: any other is no move (93 U16). -/
inductive HostOp where
  | reset (font : Font)
  | loadRom (rom : List Byte)
  | step
  | tick
  | keySet (k : Reg) (pressed : Bool)
  | readFramebuffer
  | readSound
  deriving DecidableEq, Repr

/-- What an operation reports to the host. -/
inductive Report where
  /-- `Ok`, or no result. -/
  | ok
  /-- `Ok` of a step, with the diagnostic `UnhandledOpcode(w)` (R172). -/
  | unhandledOpcode (w : Word)
  /-- `Fault(kind)` (R165). -/
  | fault (f : Fault)
  /-- The model gives a step no meaning; this never happens, since no arm of `exec` refuses. -/
  | refused (r : Refusal)
  /-- The grid of ReadFramebuffer, row-major (R184). -/
  | framebuffer (grid : List Bool)
  /-- `sound_active` (R185). -/
  | sound (active : Bool)
  deriving DecidableEq, Repr

/-- Reset (70_reset_and_hazards.md R195) with the parameter `FONT`: the state after reset. The model's own counter goes on, so that a second Reset does
not repeat earlier draws (log entry 4). -/
def hostReset (font : Font) (s : State) : State := { State.resetWith font with draws := s.draws }

/-- LoadROM (R197, R198): at most 3584 bytes, verbatim from `0x200`; a longer ROM writes nothing. -/
def hostLoadRom (rom : List Byte) (s : State) : Except Fault State :=
  if Config.romMax < rom.length then .error (.memoryOverrun rom.length)
  else .ok (s.setMem (s.mem.writeBytes Config.progBase.toNat rom))

/-- A timer one tick later, floored at 0 (R182). -/
def countDown (b : Byte) : Byte := if b = 0 then 0 else b - 1

/-- Tick (R182): both timers, in either mode. -/
def hostTick (s : State) : State := (s.setDt (countDown s.dt)).setSt (countDown s.st)

/-- KeySet (R183). -/
def hostKeySet (k : Reg) (pressed : Bool) (s : State) : State := s.setKey k pressed

/-- `sound_active = b2n(ST != 0)` (R185). -/
def soundActive (s : State) : Bool := s.st != 0

/-- The state after an invoked step and its report: a fault leaves the state before (R168). -/
def hostStep (s : State) : State × Report :=
  match step s with
  | .next t =>
    match unhandledOpcode s with
    | some w => (t, .unhandledOpcode w)
    | none => (t, .ok)
  | .fault f => (s, .fault f)
  | .refused r => (s, .refused r)

/-- One host operation: the state after it, and its report. -/
def perform : HostOp → State → State × Report
  | .reset font, s => (hostReset font s, .ok)
  | .loadRom rom, s =>
    match hostLoadRom rom s with
    | .ok t => (t, .ok)
    | .error f => (s, .fault f)
  | .step, s => hostStep s
  | .tick, s => (hostTick s, .ok)
  | .keySet k b, s => (hostKeySet k b s, .ok)
  | .readFramebuffer, s => (s, .framebuffer s.fb.grid)
  | .readSound, s => (s, .sound (soundActive s))

/-- An interleaving of operations. -/
def performAll : List HostOp → State → State
  | [], s => s
  | op :: ops, s => performAll ops (perform op s).1

end Sys2Proof.Machine
end

