-- ==== Sys2Proof/Safety.lean ====
section
/-! DEFINITION. The terms claims use: the parts of the state and what keeps them, the access matrix (10_state.md R39), the
causes of a fault (60_exceptions.md R176), the invariants (10_state.md R34, R38), the closed form of a draw (43_display.md
R137) and the runs without a fault (60_exceptions.md R178). -/

namespace Sys2Proof.Safety

open Sys2Proof.Machine

/-! Frames. -/

/-- The parts of the state the spec names. -/
inductive Part where
  | regs | index | pc | stack | delay | sound | keys | display | memory | mode | waitx
  deriving DecidableEq, Repr

/-- Two states agree on a part; memory and display through the reads of one byte and one pixel. -/
def Part.same (s t : State) : Part → Prop
  | .regs => ∀ r, t.getV r = s.getV r
  | .index => t.i = s.i
  | .pc => t.pc = s.pc
  | .stack => t.stack = s.stack
  | .delay => t.dt = s.dt
  | .sound => t.st = s.st
  | .keys => ∀ k, t.getKey k = s.getKey k
  | .display => ∀ y x, t.fb.pixel y x = s.fb.pixel y x
  | .memory => ∀ a, t.mem.read a = s.mem.read a
  | .mode => t.mode = s.mode
  | .waitx => t.waitx = s.waitx

/-- Every part but those listed is unchanged from `s` to `t`. -/
def KeepsBut (parts : List Part) (s t : State) : Prop := ∀ p, p ∉ parts → p.same s t

/-- Every general register but those listed is unchanged. -/
def KeepsRegsBut (regs : List Reg) (s t : State) : Prop := ∀ r, r ∉ regs → t.getV r = s.getV r

/-- Every byte of memory but the `n` at `base` is unchanged. -/
def KeepsMemoryBut (base n : Nat) (s t : State) : Prop :=
  ∀ a, ¬ (base ≤ a ∧ a < base + n) → t.mem.read a = s.mem.read a

/-- From `s` to `t` only the listed general registers may have changed. -/
def OnlyRegs (regs : List Reg) (s t : State) : Prop := KeepsBut [.regs] s t ∧ KeepsRegsBut regs s t

/-! The access matrix of R39, its columns of writes. -/

/-- The general registers an instruction may write. -/
def writtenRegs : Instr → List Reg
  | .ldImm x _ | .addImm x _ | .ldReg x _ | .orReg x _ | .andReg x _ | .xorReg x _ | .rnd x _ | .ldVxDt x | .ldVxK x => [x]
  | .addReg x _ | .subReg x _ | .shrReg x _ | .subnReg x _ | .shlReg x _ => [x, flagReg]
  | .drw _ _ _ => [flagReg]
  | .ldVxMem x => (List.range (x.toNat + 1)).map (BitVec.ofNat 4)
  | .sys _ | .cls | .ret | .jp _ | .call _ | .seImm _ _ | .sneImm _ _ | .seReg _ _ | .sneReg _ _ | .ldI _ | .jpV0 _ | .skp _
  | .sknp _ | .ldDtVx _ | .ldStVx _ | .addI _ | .ldF _ | .ldB _ | .ldMemVx _ => []

/-- The parts besides the general registers an instruction may write. -/
def writtenParts : Instr → List Part
  | .cls => [.display]
  | .drw _ _ _ => [.regs, .display]
  | .ret | .call _ => [.stack, .pc]
  | .jp _ | .jpV0 _ | .seImm _ _ | .sneImm _ _ | .seReg _ _ | .sneReg _ _ | .skp _ | .sknp _ => [.pc]
  | .ldI _ | .addI _ | .ldF _ => [.index]
  | .ldVxK _ => [.regs, .pc, .mode, .waitx]
  | .ldDtVx _ => [.delay]
  | .ldStVx _ => [.sound]
  | .ldB _ | .ldMemVx _ => [.memory]
  | .sys _ => []
  | .ldImm _ _ | .addImm _ _ | .ldReg _ _ | .orReg _ _ | .andReg _ _ | .xorReg _ _ | .addReg _ _ | .subReg _ _ | .shrReg _ _
  | .subnReg _ _ | .shlReg _ _ | .rnd _ _ | .ldVxDt _ | .ldVxMem _ => [.regs]

/-- How many bytes an instruction stores at `I`. -/
def storedCount : Instr → Nat
  | .ldB _ => 3
  | .ldMemVx x => x.toNat + 1
  | .sys _ | .cls | .ret | .jp _ | .call _ | .seImm _ _ | .sneImm _ _ | .seReg _ _ | .ldImm _ _ | .addImm _ _ | .ldReg _ _
  | .orReg _ _ | .andReg _ _ | .xorReg _ _ | .addReg _ _ | .subReg _ _ | .shrReg _ _ | .subnReg _ _ | .shlReg _ _
  | .sneReg _ _ | .ldI _ | .jpV0 _ | .rnd _ _ | .drw _ _ _ | .skp _ | .sknp _ | .ldVxDt _ | .ldVxK _ | .ldDtVx _
  | .ldStVx _ | .addI _ | .ldF _ | .ldVxMem _ => 0

/-! Faults. -/

/-- The one fault an instruction can raise, when its cause is present in the state it executes in (R165, R176). -/
def faultOf (i : Instr) (s : State) : Option Fault :=
  match i with
  | .call _ => if 16 ≤ s.sp then some .stackOverflow else none
  | .ret => if s.sp = 0 then some .stackUnderflow else none
  | .skp x | .sknp x => if 0xF < (s.getV x).toNat then some (.keyIndexOutOfRange (s.getV x)) else none
  | .drw _ _ n =>
    if 0 < n.toNat ∧ 0xFFF < s.i.toNat + n.toNat - 1 then some (.addressOutOfRange (s.i.toNat + n.toNat - 1)) else none
  | .ldB _ => if 0xFFF < s.i.toNat + 2 then some (.addressOutOfRange (s.i.toNat + 2)) else none
  | .ldMemVx x | .ldVxMem x =>
    if 0xFFF < s.i.toNat + x.toNat then some (.addressOutOfRange (s.i.toNat + x.toNat)) else none
  | .sys _ | .cls | .jp _ | .seImm _ _ | .sneImm _ _ | .seReg _ _ | .ldImm _ _ | .addImm _ _ | .ldReg _ _
  | .orReg _ _ | .andReg _ _ | .xorReg _ _ | .addReg _ _ | .subReg _ _ | .shrReg _ _ | .subnReg _ _ | .shlReg _ _
  | .sneReg _ _ | .ldI _ | .jpV0 _ | .rnd _ _ | .ldVxDt _ | .ldVxK _ | .ldDtVx _ | .ldStVx _ | .addI _ | .ldF _ => none

/-- Whether a report is a fault. -/
def isFault : Report → Bool
  | .fault _ => true
  | .ok | .unhandledOpcode _ | .refused _ | .framebuffer _ | .sound _ => false

/-- A run no operation of which reports a fault: the premise "no fault recorded" of R178, the model's bookkeeping. -/
def faultFree : List HostOp → State → Bool
  | [], _ => true
  | op :: ops, s => !isFault (perform op s).2 && faultFree ops (perform op s).1

/-! Invariants. -/

/-- What every operation of either agent keeps: canonical memory; R34 (a) and (d); the bound on `pc` of R38; while waiting
`pc` is an address a fetch could read. -/
abbrev CoreInv (s : State) : Prop :=
  s.mem.wf ∧ s.sp ≤ 16 ∧ (∀ e ∈ s.stack, e.toNat ≤ 0x1000) ∧ s.pc.toNat ≤ 0x10FE ∧
    (s.mode = .waitingForKey → s.pc.toNat ≤ 0xFFE)

/-- R34 (c): while waiting, `pc` is the address of the `Fx0A` and `WAITX` its `x`. LoadROM alone can break it (R154). -/
abbrev WaitInv (s : State) : Prop := s.mode = .waitingForKey → fetchedInstr s = some (.ldVxK s.waitx)

/-! The closed form of a draw (R137 (a)): every pixel looks at one sprite bit, whatever the order. -/

/-- The sprite row that falls on framebuffer row `y` of a sprite drawn at `vy`. -/
def spriteRowAt (vy : Byte) (y : Fin 32) : Nat := (y.val + 32 - vy.toNat % 32) % 32

/-- The sprite column that falls on framebuffer column `x` of a sprite drawn at `vx`. -/
def spriteColAt (vx : Byte) (x : Fin 64) : Nat := (x.val + 64 - vx.toNat % 64) % 64

/-- Whether the `n`-row sprite at `base`, drawn at `(vx, vy)`, has a bit of 1 on the pixel `(x, y)`. -/
def spriteCovers (m : Memory) (base : Nat) (vx vy : Byte) (n : Nat) (y : Fin 32) (x : Fin 64) : Bool :=
  decide (spriteRowAt vy y < n) && decide (spriteColAt vx x < 8) &&
    (m.read (base + spriteRowAt vy y)).getLsbD (7 - spriteColAt vx x)

/-! Engine state forgotten: what is left of a state when `MODE` and `WAITX` are not looked at (R154). -/

/-- The state as a machine without `MODE` has it. -/
def withoutMode (s : State) : State := (s.setMode .running).setWaitx 0

/-- The answer of a step as a machine without `MODE` gives it. -/
def answerWithoutMode : Result → Result
  | .next t => .next (withoutMode t)
  | .fault f => .fault f
  | .refused r => .refused r

end Sys2Proof.Safety
end

