-- ==== Sys2Proof/Certificates/Slice0/Obligations.lean ====
section
/-! DEFINITION. The statements about the model. `exec i s` is the execute part of a step, so `s.pc` is `npc` in it, the address
after the instruction (00_scope.md 6.4, 40_step_and_control_flow.md R80). Frames use Sys2Proof/Safety.lean. Where a clause
rests on a decision the spec marks as its own (92_eei_decisions.md), the docstring names it. -/

open Sys2Proof Sys2Proof.Machine Sys2Proof.Safety

/-! Reset. -/

/-- R35: the state Reset constructs, for every value of the parameter `FONT`, whose base is `FONT_BASE`. The last
clause, that `State.reset` is that state for the default font, is no part of R35: it is the model's choice (PRESUMED, log entry
3; the default table of R10 and R31, the spec's decision D2). -/
def Obligations.ResetLeavesSpecifiedState : Prop :=
  (∀ font : Font,
    let s := State.resetWith font
    s.pc = 0x200 ∧ s.sp = 0 ∧ s.dt = 0 ∧ s.st = 0 ∧ (∀ k, s.getKey k = false) ∧ (∀ y x, s.fb.pixel y x = false) ∧
    s.mode = .running ∧ (∀ k : Fin 80, s.mem.read (fontBase + k) = font[k]) ∧
    (∀ a, ¬ (fontBase ≤ a ∧ a < fontBase + 80) → s.mem.read a = 0)) ∧
  State.resetWith defaultFont = State.reset

/-- R36: the spec's own decision D4 (log entry 1): the registers and `I` are 0 at reset, whatever the font. -/
def Obligations.ResetClearsRegistersAndIndex : Prop :=
  ∀ font : Font, (∀ r, (State.resetWith font).getV r = 0) ∧ (State.resetWith font).i = 0

/-- The invariants of R34 and R38 hold at reset, whatever the font. -/
def Obligations.ResetMeetsInvariants : Prop :=
  CoreInv State.reset ∧ WaitInv State.reset ∧ ∀ font : Font, CoreInv (State.resetWith font) ∧ WaitInv (State.resetWith font)

/-! Encoding. -/

/-- R60 to R64: decoding the word, or the bytes, of a well-formed instruction gives it back, whatever bytes follow. -/
def Obligations.DecodeOfEncode : Prop :=
  ∀ i : Instr, i.wellFormed = true →
    decodeWord (encode i) = .instr i ∧ ∀ rest, decodeBytes (encodeBytes i ++ rest) = .instr i

/-- R63: each word has one meaning: what a word decodes to is well formed and encodes to that word. -/
def Obligations.EncodeOfDecode : Prop :=
  ∀ (w : Word) (i : Instr), decodeWord w = .instr i → i.wellFormed = true ∧ encode i = w

/-- R66: the reserved words are exactly those of its table (families 5 and 9 by the spec's decision D15). -/
def Obligations.ReservedWordsExactly : Prop :=
  ∀ w : Word, (∃ r, decodeWord w = .reserved r) ↔
    (w.toNat / 4096 = 0x5 ∧ w.toNat % 16 ≠ 0) ∨
    (w.toNat / 4096 = 0x8 ∧ w.toNat % 16 ∈ [0x8, 0x9, 0xA, 0xB, 0xC, 0xD, 0xF]) ∨
    (w.toNat / 4096 = 0x9 ∧ w.toNat % 16 ≠ 0) ∨
    (w.toNat / 4096 = 0xE ∧ w.toNat % 256 ∉ [0x9E, 0xA1]) ∨
    (w.toNat / 4096 = 0xF ∧ w.toNat % 256 ∉ [0x07, 0x0A, 0x15, 0x18, 0x1E, 0x29, 0x33, 0x55, 0x65])

/-- R63 and R64: the decoder selects the row of the opcode map that the word's bits match, the row with the larger mask
winning, and rejects a word that no row matches. -/
def Obligations.DecoderFollowsOpcodeMap : Prop :=
  ∀ w : Word,
    match decodeWord w with
    | .instr i => (selectRow w).map Row.mnemonic = some (mnemonicOf i)
    | .reserved _ => selectRow w = none

/-- Words of the decode table of 95_test_vectors.md section 2. -/
def Obligations.KnownWordsDecode : Prop :=
  decodeWord 0x00E1 = .instr (.sys 0x0E1) ∧ decodeWord 0x2FFF = .instr (.call 0xFFF) ∧
  decodeWord 0x8AB7 = .instr (.subnReg 0xA 0xB) ∧ decodeWord 0xD12F = .instr (.drw 1 2 0xF) ∧
  decodeWord 0xE1A1 = .instr (.sknp 1) ∧ decodeWord 0xF065 = .instr (.ldVxMem 0) ∧ decodeWord 0x8ABD = .reserved .family8

/-! The step. -/

/-- R80: when the bytes at `pc` decode to an instruction, a running step is its execution with `pc` advanced by 2, and it
reports no diagnostic. -/
def Obligations.StepRunsDecodedInstruction : Prop :=
  ∀ (s : State) (i : Instr), s.mode = .running → s.pc.toNat ≤ 0xFFE → i.wellFormed = true →
    decodeBytes [s.mem.read s.pc.toNat, s.mem.read (s.pc.toNat + 1)] = .instr i →
    step s = exec i (s.setPc (s.pc + 2)) ∧ unhandledOpcode s = none

/-- R66, R172 (the report is the spec's decision D33): a reserved word moves `pc` by 2, does nothing else, and is reported. -/
def Obligations.StepOnReservedWordAdvances : Prop :=
  ∀ (s : State) (r : Reject), s.mode = .running → s.pc.toNat ≤ 0xFFE →
    decodeBytes [s.mem.read s.pc.toNat, s.mem.read (s.pc.toNat + 1)] = .reserved r →
    (∃ t, step s = .next t ∧ t.pc.toNat = s.pc.toNat + 2 ∧ KeepsBut [.pc] s t) ∧
    ∃ w, unhandledOpcode s = some w ∧
      w.toNat = 256 * (s.mem.read s.pc.toNat).toNat + (s.mem.read (s.pc.toNat + 1)).toNat

/-- R43, R171 (the spec's decision D5): a fetch above `0xFFE` faults with `pc0`, at `0xFFF` too. -/
def Obligations.FetchBeyondMemoryFaults : Prop :=
  ∀ s : State, s.mode = .running → 0xFFE < s.pc.toNat →
    step s = .fault (.addressOutOfRange s.pc.toNat) ∧ hostStep s = (s, .fault (.addressOutOfRange s.pc.toNat))

/-- R150 (the spec's decision D10): the waiting step fetches nothing; with no key pressed nothing changes, else a pressed
key's index goes to `V[WAITX]`, `pc` moves past the `Fx0A` and the engine runs again. It never reports. -/
def Obligations.WaitingStepEndsOnKey : Prop :=
  ∀ s : State, s.mode = .waitingForKey →
    ((∀ k, s.getKey k = false) → step s = .next s) ∧
    ((∃ k, s.getKey k = true) → ∃ (t : State) (k : Reg), step s = .next t ∧ s.getKey k = true ∧
      (t.getV s.waitx).toNat = k.toNat ∧ t.pc = s.pc + 2 ∧ t.mode = .running ∧
      KeepsBut [.regs, .pc, .mode] s t ∧ KeepsRegsBut [s.waitx] s t) ∧
    (∀ (m : Memory) (t : State), step s = .next t → step (s.setMem m) = .next (t.setMem m)) ∧
    unhandledOpcode s = none

/-- R82, R168 (no state change: the spec's decision D7): a step ends in `Ok`, in `Ok` with the diagnostic, or in one of four
faults, after which the state is the one before. It is never refused. -/
def Obligations.StepOutcomesAreThree : Prop :=
  ∀ s : State,
    (∃ t, step s = .next t ∧ (hostStep s = (t, .ok) ∨ ∃ w, hostStep s = (t, .unhandledOpcode w))) ∨
    (∃ f, step s = .fault f ∧ hostStep s = (s, .fault f) ∧
      (f = .stackOverflow ∨ f = .stackUnderflow ∨ (∃ a, f = .addressOutOfRange a) ∨ ∃ k, f = .keyIndexOutOfRange k))

/-- R165, R176: an instruction faults exactly when its one cause is present, with the recorded value of R165, and in every
other state it completes (the address and key causes are the spec's decisions D5 and D9). -/
def Obligations.InstructionsFaultExactlyOnCause : Prop :=
  ∀ (i : Instr) (s : State),
    (∀ f, exec i s = .fault f ↔ faultOf i s = some f) ∧ (faultOf i s = none → ∃ t, exec i s = .next t)

/-- R178 (the spec's decision D8): stepping again after a fault repeats it, and so it does after a Tick or a KeySet, whatever
is drawn. -/
def Obligations.FaultRepeats : Prop :=
  ∀ (s : State) (f : Fault), step s = .fault f →
    step (perform .step s).1 = .fault f ∧ step (perform .tick s).1 = .fault f ∧
    (∀ k b, step (perform (.keySet k b) s).1 = .fault f) ∧ ∀ d, step { s with draws := d } = .fault f

/-- R204: a jump to itself leaves the whole state unchanged. -/
def Obligations.SelfJumpIsStable : Prop :=
  ∀ (s : State) (nnn : Addr12), s.mode = .running → fetchedInstr s = some (.jp nnn) → s.pc.toNat = nnn.toNat →
    step s = .next s

/-! Invariants and whole-machine rules. -/

/-- R34, R38: every step that answers a next state keeps the canonical memory, the stack bound, the bound of its entries, the
bound on `pc`, and the waiting `Fx0A` under `pc`. -/
def Obligations.StepKeepsInvariants : Prop :=
  ∀ s t : State, CoreInv s → WaitInv s → step s = .next t → CoreInv t ∧ WaitInv t

/-- R34, R180: every operation of either agent keeps the core invariant, and every one but LoadROM (R154) the waiting one. -/
def Obligations.HostOperationsKeepInvariants : Prop :=
  ∀ (op : HostOp) (s : State), CoreInv s →
    CoreInv (perform op s).1 ∧ (WaitInv s → (∀ rom, op ≠ .loadRom rom) → WaitInv (perform op s).1)

/-- R154: with the `Fx0A` still under `pc`, the waiting step is the re-execution of the `Fx0A` by a machine without `MODE`. -/
def Obligations.WaitingStepIsRefetch : Prop :=
  ∀ s : State, s.mode = .waitingForKey → WaitInv s →
    answerWithoutMode (step s) = answerWithoutMode (step (s.setMode .running))

/-- R39, R83 (no write where the table is silent: the spec's decision D23): the access matrix, for all 35 instructions. Only
the named parts, registers and bytes may change. -/
def Obligations.AccessMatrixHolds : Prop :=
  ∀ (i : Instr) (s t : State), exec i s = .next t →
    KeepsBut (writtenParts i) s t ∧ KeepsRegsBut (writtenRegs i) s t ∧
    KeepsMemoryBut s.i.toNat (storedCount i) s t

/-- R22, R24, R26 to R30, R39, R132: only these events change these parts: a general register changes only as the key a
waiting step records or as one its instruction's row of the access matrix writes; `I` by `Annn`, `Fx1E` or `Fx29`; no step
writes the keypad; `DT` changes by `Fx15`, `ST` by `Fx18`,
a pixel by `00E0` or `Dxyn`, a byte by `Fx33` or `Fx55`, the stack by `2nnn` or `00EE`; the wait is entered by `Fx0A` with no
key pressed and left by a waiting step with a key pressed. -/
def Obligations.OnlyTheseEventsChange : Prop :=
  ∀ s t : State, step s = .next t →
    (∀ r, t.getV r ≠ s.getV r →
      (s.mode = .waitingForKey ∧ r = s.waitx) ∨
      (s.mode = .running ∧ ∃ i, fetchedInstr s = some i ∧ r ∈ writtenRegs i)) ∧
    (t.i ≠ s.i → (∃ nnn, fetchedInstr s = some (.ldI nnn)) ∨
      ∃ x, fetchedInstr s = some (.addI x) ∨ fetchedInstr s = some (.ldF x)) ∧
    (∀ k, t.getKey k = s.getKey k) ∧
    (t.dt ≠ s.dt → ∃ x, fetchedInstr s = some (.ldDtVx x)) ∧
    (t.st ≠ s.st → ∃ x, fetchedInstr s = some (.ldStVx x)) ∧
    (∀ y x, t.fb.pixel y x ≠ s.fb.pixel y x →
      fetchedInstr s = some .cls ∨ ∃ x' y' n, fetchedInstr s = some (.drw x' y' n)) ∧
    (∀ a, t.mem.read a ≠ s.mem.read a → ∃ x, fetchedInstr s = some (.ldB x) ∨ fetchedInstr s = some (.ldMemVx x)) ∧
    (t.stack ≠ s.stack → fetchedInstr s = some .ret ∨ ∃ nnn, fetchedInstr s = some (.call nnn)) ∧
    (s.mode = .running → t.mode = .waitingForKey →
      (∀ k, s.getKey k = false) ∧ fetchedInstr s = some (.ldVxK t.waitx) ∧ t.pc = s.pc) ∧
    (s.mode = .waitingForKey → t.mode = .running → ∃ k, s.getKey k = true)

/-! Control flow. -/

/-- R84: every word `0nnn` but `00E0` and `00EE`; nothing beyond the advance, and no diagnostic. -/
def Obligations.SysIsIgnored : Prop :=
  (∀ nnn : Addr12, decodeWord (BitVec.ofNat 16 nnn.toNat) = .instr (.sys nnn) ↔ nnn ≠ 0x0E0 ∧ nnn ≠ 0x0EE) ∧
  (∀ (nnn : Addr12) (s : State), exec (.sys nnn) s = .next s) ∧
  ∀ (nnn : Addr12) (s : State), s.mode = .running → fetchedInstr s = some (.sys nnn) →
    step s = .next (s.setPc (s.pc + 2)) ∧ unhandledOpcode s = none

/-- R85. On the fault the whole step leaves `s`, `pc` at `pc0` included (the spec's decision D7). -/
def Obligations.ReturnPopsIntoPc : Prop :=
  decodeWord 0x00EE = .instr .ret ∧
  ∀ s : State,
    (s.sp = 0 → exec .ret s = .fault .stackUnderflow) ∧
    (0 < s.sp → ∃ t, exec .ret s = .next t ∧ some t.pc = s.stackEntry (s.sp - 1) ∧ t.sp = s.sp - 1 ∧
      (∀ k, k < s.sp - 1 → t.stackEntry k = s.stackEntry k) ∧ KeepsBut [.pc, .stack] s t) ∧
    (s.mode = .running → fetchedInstr s = some .ret → s.sp = 0 → hostStep s = (s, .fault .stackUnderflow))

/-- R86. -/
def Obligations.JumpSetsPc : Prop :=
  ∀ nnn : Addr12, decodeWord (BitVec.ofNat 16 (0x1000 + nnn.toNat)) = .instr (.jp nnn) ∧
    ∀ s : State, ∃ t, exec (.jp nnn) s = .next t ∧ t.pc.toNat = nnn.toNat ∧ KeepsBut [.pc] s t

/-- R87. The return address is `npc`, which is `s.pc` here; the bound 16 is the spec's decision D3. On the fault the whole step
leaves `s` (decision D7). -/
def Obligations.CallPushesReturnAddress : Prop :=
  ∀ nnn : Addr12, decodeWord (BitVec.ofNat 16 (0x2000 + nnn.toNat)) = .instr (.call nnn) ∧
    ∀ s : State,
      (Config.stackDepth ≤ s.sp → exec (.call nnn) s = .fault .stackOverflow) ∧
      (s.sp < Config.stackDepth → ∃ t, exec (.call nnn) s = .next t ∧ t.pc.toNat = nnn.toNat ∧ t.sp = s.sp + 1 ∧
        t.stackEntry s.sp = some s.pc ∧ (∀ k, k < s.sp → t.stackEntry k = s.stackEntry k) ∧
        KeepsBut [.pc, .stack] s t) ∧
      (s.mode = .running → fetchedInstr s = some (.call nnn) → Config.stackDepth ≤ s.sp →
        hostStep s = (s, .fault .stackOverflow))

/-- R85 with R87: a return that finds the stack a call left continues after the call, with the stack as before it. -/
def Obligations.CallThenReturnResumes : Prop :=
  ∀ (s t u : State) (nnn : Addr12), exec (.call nnn) s = .next t → u.stack = t.stack →
    ∃ w, exec .ret u = .next w ∧ w.pc = s.pc ∧ w.stack = s.stack ∧ KeepsBut [.pc, .stack] u w

/-- R88, R89. -/
def Obligations.SkipsOnImmediate : Prop :=
  ∀ (x : Reg) (kk : Byte),
    decodeWord (BitVec.ofNat 16 (0x3000 + 256 * x.toNat + kk.toNat)) = .instr (.seImm x kk) ∧
    decodeWord (BitVec.ofNat 16 (0x4000 + 256 * x.toNat + kk.toNat)) = .instr (.sneImm x kk) ∧
    ∀ s : State,
      (∃ t, exec (.seImm x kk) s = .next t ∧ KeepsBut [.pc] s t ∧
        t.pc.toNat = if s.getV x = kk then (s.pc.toNat + 2) % 65536 else s.pc.toNat) ∧
      (∃ t, exec (.sneImm x kk) s = .next t ∧ KeepsBut [.pc] s t ∧
        t.pc.toNat = if s.getV x = kk then s.pc.toNat else (s.pc.toNat + 2) % 65536)

/-- R90, R91, with the other low nibbles reserved (R67, the spec's decision D15). -/
def Obligations.SkipsOnRegister : Prop :=
  ∀ x y : Reg,
    decodeWord (BitVec.ofNat 16 (0x5000 + 256 * x.toNat + 16 * y.toNat)) = .instr (.seReg x y) ∧
    decodeWord (BitVec.ofNat 16 (0x9000 + 256 * x.toNat + 16 * y.toNat)) = .instr (.sneReg x y) ∧
    (∀ n : Nibble, n ≠ 0 →
      decodeWord (BitVec.ofNat 16 (0x5000 + 256 * x.toNat + 16 * y.toNat + n.toNat)) = .reserved .family5 ∧
      decodeWord (BitVec.ofNat 16 (0x9000 + 256 * x.toNat + 16 * y.toNat + n.toNat)) = .reserved .family9) ∧
    ∀ s : State,
      (∃ t, exec (.seReg x y) s = .next t ∧ KeepsBut [.pc] s t ∧
        t.pc.toNat = if s.getV x = s.getV y then (s.pc.toNat + 2) % 65536 else s.pc.toNat) ∧
      (∃ t, exec (.sneReg x y) s = .next t ∧ KeepsBut [.pc] s t ∧
        t.pc.toNat = if s.getV x = s.getV y then s.pc.toNat else (s.pc.toNat + 2) % 65536)

/-- R92: the sum is not reduced to 12 bits and never wraps. -/
def Obligations.JumpPlusV0 : Prop :=
  ∀ nnn : Addr12, decodeWord (BitVec.ofNat 16 (0xB000 + nnn.toNat)) = .instr (.jpV0 nnn) ∧
    ∀ s : State, ∃ t, exec (.jpV0 nnn) s = .next t ∧ t.pc.toNat = nnn.toNat + (s.getV 0).toNat ∧ t.pc.toNat ≤ 0x10FE ∧
      KeepsBut [.pc] s t

/-! Loads and the ALU. -/

/-- R101. -/
def Obligations.LoadImmediate : Prop :=
  ∀ (x : Reg) (kk : Byte),
    decodeWord (BitVec.ofNat 16 (0x6000 + 256 * x.toNat + kk.toNat)) = .instr (.ldImm x kk) ∧
    ∀ s : State, ∃ t, exec (.ldImm x kk) s = .next t ∧ t.getV x = kk ∧ OnlyRegs [x] s t

/-- R102. -/
def Obligations.AddImmediateWraps : Prop :=
  ∀ (x : Reg) (kk : Byte),
    decodeWord (BitVec.ofNat 16 (0x7000 + 256 * x.toNat + kk.toNat)) = .instr (.addImm x kk) ∧
    ∀ s : State, ∃ t, exec (.addImm x kk) s = .next t ∧
      (t.getV x).toNat = ((s.getV x).toNat + kk.toNat) % 256 ∧ OnlyRegs [x] s t

/-- R103. -/
def Obligations.CopyRegister : Prop :=
  ∀ x y : Reg,
    decodeWord (BitVec.ofNat 16 (0x8000 + 256 * x.toNat + 16 * y.toNat)) = .instr (.ldReg x y) ∧
    ∀ s : State, ∃ t, exec (.ldReg x y) s = .next t ∧ t.getV x = s.getV y ∧ OnlyRegs [x] s t

/-- R104 to R106, bit by bit; `VF` is not reset (R83, the spec's decision D23). -/
def Obligations.LogicInstructions : Prop :=
  ∀ x y : Reg,
    decodeWord (BitVec.ofNat 16 (0x8001 + 256 * x.toNat + 16 * y.toNat)) = .instr (.orReg x y) ∧
    decodeWord (BitVec.ofNat 16 (0x8002 + 256 * x.toNat + 16 * y.toNat)) = .instr (.andReg x y) ∧
    decodeWord (BitVec.ofNat 16 (0x8003 + 256 * x.toNat + 16 * y.toNat)) = .instr (.xorReg x y) ∧
    ∀ s : State,
      (∃ t, exec (.orReg x y) s = .next t ∧ OnlyRegs [x] s t ∧
        ∀ k, k < 8 → (t.getV x).getLsbD k = ((s.getV x).getLsbD k || (s.getV y).getLsbD k)) ∧
      (∃ t, exec (.andReg x y) s = .next t ∧ OnlyRegs [x] s t ∧
        ∀ k, k < 8 → (t.getV x).getLsbD k = ((s.getV x).getLsbD k && (s.getV y).getLsbD k)) ∧
      (∃ t, exec (.xorReg x y) s = .next t ∧ OnlyRegs [x] s t ∧
        ∀ k, k < 8 → (t.getV x).getLsbD k = ((s.getV x).getLsbD k ^^ (s.getV y).getLsbD k))

/-- R107. With `x = F` the flag stays and the sum is lost (R100, the spec's decision D12). -/
def Obligations.AddSetsCarry : Prop :=
  ∀ x y : Reg,
    decodeWord (BitVec.ofNat 16 (0x8004 + 256 * x.toNat + 16 * y.toNat)) = .instr (.addReg x y) ∧
    ∀ s : State, ∃ t, exec (.addReg x y) s = .next t ∧
      t.getVF.toNat = (if 255 < (s.getV x).toNat + (s.getV y).toNat then 1 else 0) ∧
      (x ≠ 0xF → (t.getV x).toNat = ((s.getV x).toNat + (s.getV y).toNat) % 256) ∧ OnlyRegs [x, 0xF] s t

/-- R108, R110, its mirror. The flag is strict (the spec's decision D28); with `x = F` it stays (R100, decision D12). -/
def Obligations.SubtractionsSetStrictGreater : Prop :=
  ∀ x y : Reg,
    decodeWord (BitVec.ofNat 16 (0x8005 + 256 * x.toNat + 16 * y.toNat)) = .instr (.subReg x y) ∧
    decodeWord (BitVec.ofNat 16 (0x8007 + 256 * x.toNat + 16 * y.toNat)) = .instr (.subnReg x y) ∧
    ∀ s : State,
      (∃ t, exec (.subReg x y) s = .next t ∧
        t.getVF.toNat = (if (s.getV y).toNat < (s.getV x).toNat then 1 else 0) ∧
        (x ≠ 0xF → ((t.getV x).toNat : Int) = ((s.getV x).toNat - (s.getV y).toNat : Int) % 256) ∧ OnlyRegs [x, 0xF] s t) ∧
      (∃ t, exec (.subnReg x y) s = .next t ∧
        t.getVF.toNat = (if (s.getV x).toNat < (s.getV y).toNat then 1 else 0) ∧
        (x ≠ 0xF → ((t.getV x).toNat : Int) = ((s.getV y).toNat - (s.getV x).toNat : Int) % 256) ∧ OnlyRegs [x, 0xF] s t)

/-- R109, R69: `V[x]` alone is shifted, whatever `y` is; with `x = F` the flag stays (R100, the spec's decision D12). -/
def Obligations.ShiftRightDropsLowBit : Prop :=
  ∀ x y : Reg,
    decodeWord (BitVec.ofNat 16 (0x8006 + 256 * x.toNat + 16 * y.toNat)) = .instr (.shrReg x y) ∧
    ∀ s : State, ∃ t, exec (.shrReg x y) s = .next t ∧ t.getVF.toNat = (s.getV x).toNat % 2 ∧
      (x ≠ 0xF → (t.getV x).toNat = (s.getV x).toNat / 2) ∧ OnlyRegs [x, 0xF] s t

/-- R111, R69: the flag is bit 7 as 0 or 1 (the spec's decision D13); with `x = F` it stays (decision D12). -/
def Obligations.ShiftLeftDropsHighBit : Prop :=
  ∀ x y : Reg,
    decodeWord (BitVec.ofNat 16 (0x800E + 256 * x.toNat + 16 * y.toNat)) = .instr (.shlReg x y) ∧
    ∀ s : State, ∃ t, exec (.shlReg x y) s = .next t ∧ t.getVF.toNat = (s.getV x).toNat / 128 ∧
      (x ≠ 0xF → (t.getV x).toNat = 2 * (s.getV x).toNat % 256) ∧ OnlyRegs [x, 0xF] s t

/-- R112: the drawn byte is a free value (the spec's decision D18, log entry 4); what is known of the result is that it lies
inside `kk`; the next draw is another one. -/
def Obligations.RandomByteIsMasked : Prop :=
  ∀ (x : Reg) (kk : Byte),
    decodeWord (BitVec.ofNat 16 (0xC000 + 256 * x.toNat + kk.toNat)) = .instr (.rnd x kk) ∧
    ∀ s : State, ∃ t, exec (.rnd x kk) s = .next t ∧ t.getV x = kk &&& Config.rnd s.draws ∧
      t.getV x &&& ~~~kk = 0 ∧ (t.getV x).toNat ≤ kk.toNat ∧ t.draws = s.draws + 1 ∧ OnlyRegs [x] s t

/-! Index register and memory transfers. -/

/-- R120. -/
def Obligations.LoadIndex : Prop :=
  ∀ nnn : Addr12, decodeWord (BitVec.ofNat 16 (0xA000 + nnn.toNat)) = .instr (.ldI nnn) ∧
    ∀ s : State, ∃ t, exec (.ldI nnn) s = .next t ∧ t.i.toNat = nnn.toNat ∧ KeepsBut [.index] s t

/-- R121 (modulo 65536, no flag: the spec's decisions D6 and D23). -/
def Obligations.AddToIndex : Prop :=
  ∀ x : Reg, decodeWord (BitVec.ofNat 16 (0xF01E + 256 * x.toNat)) = .instr (.addI x) ∧
    ∀ s : State, ∃ t, exec (.addI x) s = .next t ∧ t.i.toNat = (s.i.toNat + (s.getV x).toNat) % 65536 ∧
      KeepsBut [.index] s t

/-- R122 (the whole of `V[x]`: the spec's decision D29). -/
def Obligations.GlyphAddressIsFiveTimes : Prop :=
  ∀ x : Reg, decodeWord (BitVec.ofNat 16 (0xF029 + 256 * x.toNat)) = .instr (.ldF x) ∧
    ∀ s : State, ∃ t, exec (.ldF x) s = .next t ∧ t.i.toNat = 5 * (s.getV x).toNat ∧ KeepsBut [.index] s t

/-- R126 (the range fault is the spec's decision D5): the digits at `I`, `I+1`, `I+2`, and every other byte kept. -/
def Obligations.StoreDecimalDigits : Prop :=
  ∀ x : Reg, decodeWord (BitVec.ofNat 16 (0xF033 + 256 * x.toNat)) = .instr (.ldB x) ∧
    ∀ s : State,
      (0xFFF < s.i.toNat + 2 → exec (.ldB x) s = .fault (.addressOutOfRange (s.i.toNat + 2))) ∧
      (s.i.toNat + 2 ≤ 0xFFF → ∃ t, exec (.ldB x) s = .next t ∧
        (t.mem.read s.i.toNat).toNat = (s.getV x).toNat / 100 ∧
        (t.mem.read (s.i.toNat + 1)).toNat = (s.getV x).toNat / 10 % 10 ∧
        (t.mem.read (s.i.toNat + 2)).toNat = (s.getV x).toNat % 10 ∧
        KeepsMemoryBut s.i.toNat 3 s t ∧ KeepsBut [.memory] s t)

/-- R128 (the range fault is the spec's decision D5, `I` unchanged D23): `V[0..x]` at `I..I+x`, every other byte kept. -/
def Obligations.StoreRegisterRange : Prop :=
  ∀ x : Reg, decodeWord (BitVec.ofNat 16 (0xF055 + 256 * x.toNat)) = .instr (.ldMemVx x) ∧
    ∀ s : State,
      (0xFFF < s.i.toNat + x.toNat → exec (.ldMemVx x) s = .fault (.addressOutOfRange (s.i.toNat + x.toNat))) ∧
      (s.i.toNat + x.toNat ≤ 0xFFF → ∃ t, exec (.ldMemVx x) s = .next t ∧
        (∀ r : Reg, r.toNat ≤ x.toNat → t.mem.read (s.i.toNat + r.toNat) = s.getV r) ∧
        KeepsMemoryBut s.i.toNat (x.toNat + 1) s t ∧ KeepsBut [.memory] s t)

/-- R130 (the range fault is the spec's decision D5, `I` unchanged D23): `V[0..x]` from `I..I+x`, every other register kept. -/
def Obligations.LoadRegisterRange : Prop :=
  ∀ x : Reg, decodeWord (BitVec.ofNat 16 (0xF065 + 256 * x.toNat)) = .instr (.ldVxMem x) ∧
    ∀ s : State,
      (0xFFF < s.i.toNat + x.toNat → exec (.ldVxMem x) s = .fault (.addressOutOfRange (s.i.toNat + x.toNat))) ∧
      (s.i.toNat + x.toNat ≤ 0xFFF → ∃ t, exec (.ldVxMem x) s = .next t ∧
        (∀ r : Reg, t.getV r = if r.toNat ≤ x.toNat then s.mem.read (s.i.toNat + r.toNat) else s.getV r) ∧
        KeepsBut [.regs] s t)

/-- R128 with R130: loading what was stored, from the same `I`, restores the registers `V[0..x]`. -/
def Obligations.StoreThenLoadRestores : Prop :=
  ∀ (s t u : State) (x : Reg), exec (.ldMemVx x) s = .next t → u.mem = t.mem → u.i = s.i →
    ∃ w, exec (.ldVxMem x) u = .next w ∧ (∀ r : Reg, r.toNat ≤ x.toNat → w.getV r = s.getV r) ∧ w.i = s.i

/-- R126 with R130: the digits, loaded into `V[0..2]`, make up the number again. -/
def Obligations.DecimalDigitsMakeUpNumber : Prop :=
  ∀ (s t : State) (x : Reg), exec (.ldB x) s = .next t →
    ∃ w, exec (.ldVxMem 2) t = .next w ∧
      100 * (w.getV 0).toNat + 10 * (w.getV 1).toNat + (w.getV 2).toNat = (s.getV x).toNat ∧
      (w.getV 0).toNat ≤ 2 ∧ (w.getV 1).toNat ≤ 9 ∧ (w.getV 2).toNat ≤ 9

/-- R44, R53: two registers stored by `Fx55` are seen at once by a fetch at `I`, as the word `V[0] ++ V[1]`. -/
def Obligations.FetchSeesStoredWord : Prop :=
  ∀ (s t u : State) (x : Reg), exec (.ldMemVx x) s = .next t → 1 ≤ x.toNat → u.mem = t.mem → u.pc = s.i →
    ∃ w, fetch u = .ok w ∧ w.toNat = 256 * (s.getV 0).toNat + (s.getV 1).toNat

/-! Display. -/

/-- R135 (`VF` kept: the spec's decision D23). -/
def Obligations.ClearTurnsAllPixelsOff : Prop :=
  decodeWord 0x00E0 = .instr .cls ∧
  ∀ s : State, ∃ t, exec .cls s = .next t ∧ (∀ y x, t.fb.pixel y x = false) ∧ KeepsBut [.display] s t

/-- R136, R137 (a), R138: the loops over rows and columns come to one look at each pixel's sprite bit in the framebuffer and
memory as they were; the flag is the OR over the sprite. The bit order is the spec's decision D14, the old `VF` as coordinate
D12, the range fault D5, `n = 0` D34. -/
def Obligations.DrawXorsSprite : Prop :=
  ∀ (x y : Reg) (n : Nibble),
    decodeWord (BitVec.ofNat 16 (0xD000 + 256 * x.toNat + 16 * y.toNat + n.toNat)) = .instr (.drw x y n) ∧
    ∀ s : State,
      (0 < n.toNat → 0xFFF < s.i.toNat + n.toNat - 1 →
        exec (.drw x y n) s = .fault (.addressOutOfRange (s.i.toNat + n.toNat - 1))) ∧
      (n.toNat = 0 ∨ s.i.toNat + n.toNat - 1 ≤ 0xFFF → ∃ t, exec (.drw x y n) s = .next t ∧
        (∀ q p, t.fb.pixel q p =
          (s.fb.pixel q p ^^ spriteCovers s.mem s.i.toNat (s.getV x) (s.getV y) n.toNat q p)) ∧
        (t.getVF = 0 ∨ t.getVF = 1) ∧
        (t.getVF = 1 ↔ ∃ q p,
          spriteCovers s.mem s.i.toNat (s.getV x) (s.getV y) n.toNat q p = true ∧ s.fb.pixel q p = true) ∧
        KeepsBut [.regs, .display] s t ∧ KeepsRegsBut [0xF] s t)

/-- R137 (b): a second draw of the same sprite at the same coordinates restores every pixel; on a blank framebuffer the first
reports no collision and the second reports one exactly when the sprite has a bit set. -/
def Obligations.DrawTwiceRestores : Prop :=
  ∀ (s t u : State) (x y x' y' : Reg) (n : Nibble), exec (.drw x y n) s = .next t →
    u.fb = t.fb → u.mem = s.mem → u.i = s.i → u.getV x' = s.getV x → u.getV y' = s.getV y →
    ∃ w, exec (.drw x' y' n) u = .next w ∧ (∀ q p, w.fb.pixel q p = s.fb.pixel q p) ∧
      ((∀ q p, s.fb.pixel q p = false) →
        t.getVF = 0 ∧ (w.getVF = 1 ↔ ∃ k, k < n.toNat ∧ s.mem.read (s.i.toNat + k) ≠ 0))

/-! Keypad and timers. -/

/-- R145, R146, R147 (the index fault is the spec's decision D9). -/
def Obligations.SkipsOnKey : Prop :=
  ∀ x : Reg,
    decodeWord (BitVec.ofNat 16 (0xE09E + 256 * x.toNat)) = .instr (.skp x) ∧
    decodeWord (BitVec.ofNat 16 (0xE0A1 + 256 * x.toNat)) = .instr (.sknp x) ∧
    ∀ s : State,
      (0xF < (s.getV x).toNat → exec (.skp x) s = .fault (.keyIndexOutOfRange (s.getV x)) ∧
        exec (.sknp x) s = .fault (.keyIndexOutOfRange (s.getV x))) ∧
      ∀ k : Reg, (s.getV x).toNat = k.toNat →
        (∃ t, exec (.skp x) s = .next t ∧ KeepsBut [.pc] s t ∧
          t.pc.toNat = if s.getKey k then (s.pc.toNat + 2) % 65536 else s.pc.toNat) ∧
        (∃ t, exec (.sknp x) s = .next t ∧ KeepsBut [.pc] s t ∧
          t.pc.toNat = if s.getKey k then s.pc.toNat else (s.pc.toNat + 2) % 65536)

/-- R148, R149 (the spec's decisions D10 and D11; which of several pressed keys is a free value, log entry 5). `pc0` is
`s.pc - 2`. -/
def Obligations.KeyWaitRecordsOrWaits : Prop :=
  ∀ x : Reg, decodeWord (BitVec.ofNat 16 (0xF00A + 256 * x.toNat)) = .instr (.ldVxK x) ∧
    ∀ s : State,
      ((∃ k, s.getKey k = true) → ∃ (t : State) (k : Reg), exec (.ldVxK x) s = .next t ∧ s.getKey k = true ∧
        (t.getV x).toNat = k.toNat ∧ OnlyRegs [x] s t) ∧
      ((∀ k, s.getKey k = false) → ∃ t, exec (.ldVxK x) s = .next t ∧ t.pc = s.pc - 2 ∧ t.mode = .waitingForKey ∧
        t.waitx = x ∧ KeepsBut [.pc, .mode, .waitx] s t)

/-- R151 to R153. -/
def Obligations.TimerInstructions : Prop :=
  ∀ x : Reg,
    decodeWord (BitVec.ofNat 16 (0xF007 + 256 * x.toNat)) = .instr (.ldVxDt x) ∧
    decodeWord (BitVec.ofNat 16 (0xF015 + 256 * x.toNat)) = .instr (.ldDtVx x) ∧
    decodeWord (BitVec.ofNat 16 (0xF018 + 256 * x.toNat)) = .instr (.ldStVx x) ∧
    ∀ s : State,
      (∃ t, exec (.ldVxDt x) s = .next t ∧ t.getV x = s.dt ∧ OnlyRegs [x] s t) ∧
      (∃ t, exec (.ldDtVx x) s = .next t ∧ t.dt = s.getV x ∧ KeepsBut [.delay] s t) ∧
      (∃ t, exec (.ldStVx x) s = .next t ∧ t.st = s.getV x ∧ KeepsBut [.sound] s t)

/-! Host operations. -/

/-- R182, in either mode (the spec's decision D26). -/
def Obligations.TickCountsDown : Prop :=
  ∀ s : State, ∃ t, perform .tick s = (t, .ok) ∧ t.dt.toNat = s.dt.toNat - 1 ∧ t.st.toNat = s.st.toNat - 1 ∧
    KeepsBut [.delay, .sound] s t

/-- R182: after `n` Ticks a timer stands at its value less `n`, floored at 0. -/
def Obligations.TicksReachZeroAndStay : Prop :=
  ∀ (n : Nat) (s : State),
    (performAll (List.replicate n .tick) s).dt.toNat = s.dt.toNat - n ∧
    (performAll (List.replicate n .tick) s).st.toNat = s.st.toNat - n

/-- R183. -/
def Obligations.KeySetChangesOneKey : Prop :=
  ∀ (k : Reg) (b : Bool) (s : State),
    (∃ t, perform (.keySet k b) s = (t, .ok) ∧ t.getKey k = b ∧ (∀ j, j ≠ k → t.getKey j = s.getKey j) ∧
      KeepsBut [.keys] s t) ∧
    (s.getKey k = b → (perform (.keySet k b) s).1 = s) ∧
    (s.getKey k = false → performAll [.keySet k true, .keySet k false] s = s)

/-- R184. -/
def Obligations.ReadFramebufferIsRowMajor : Prop :=
  ∀ s : State, ∃ grid, perform .readFramebuffer s = (s, .framebuffer grid) ∧ grid.length = 2048 ∧
    ∀ (y : Fin 32) (x : Fin 64), grid[y.val * 64 + x.val]? = some (s.fb.pixel y x)

/-- R185 (the one bit is the spec's decision D20). -/
def Obligations.ReadSoundIsTimerNonzero : Prop :=
  ∀ s : State, ∃ active, perform .readSound s = (s, .sound active) ∧ (active = true ↔ s.st.toNat ≠ 0)

/-- R197, R198. -/
def Obligations.LoadRomWritesVerbatim : Prop :=
  ∀ (rom : List Byte) (s : State),
    (3584 < rom.length → perform (.loadRom rom) s = (s, .fault (.memoryOverrun rom.length))) ∧
    (rom.length ≤ 3584 → ∃ t, perform (.loadRom rom) s = (t, .ok) ∧
      (∀ k, k < rom.length → some (t.mem.read (0x200 + k)) = rom[k]?) ∧
      KeepsMemoryBut 0x200 rom.length s t ∧ KeepsBut [.memory] s t)

/-- R195 (`V` and `I`: the spec's decision D4, log entry 1; `WAITX`: log entry 2): Reset leads from every state to the state
after reset with its font, and erases a loaded ROM. -/
def Obligations.HostResetRestoresReset : Prop :=
  ∀ (font : Font) (s : State) (rom : List Byte), rom.length ≤ 3584 →
    ∃ t, perform (.reset font) (perform (.loadRom rom) s).1 = (t, .ok) ∧ KeepsBut [] (State.resetWith font) t ∧
      t.mem = (State.resetWith font).mem
end

