-- ==== Sys2Proof/Laws/Decode.lean ====
section
/-! SUPPORT. The fields of a word and the assembled words as numbers; the fields of an assembled word, format by format; the
bytes of a word. -/

namespace Sys2Proof

/-! Fields as numbers. -/

theorem opField_toNat (w : Word) : (opField w).toNat = w.toNat / 4096 := by
  have := w.isLt
  simp only [opField, BitVec.extractLsb'_toNat, Nat.shiftRight_eq_div_pow]; omega

theorem xField_toNat (w : Word) : (xField w).toNat = w.toNat / 256 % 16 := by
  simp only [xField, BitVec.extractLsb'_toNat, Nat.shiftRight_eq_div_pow]

theorem yField_toNat (w : Word) : (yField w).toNat = w.toNat / 16 % 16 := by
  simp only [yField, BitVec.extractLsb'_toNat, Nat.shiftRight_eq_div_pow]

theorem nField_toNat (w : Word) : (nField w).toNat = w.toNat % 16 := by
  simp only [nField, BitVec.extractLsb'_toNat, Nat.shiftRight_eq_div_pow]; omega

theorem kkField_toNat (w : Word) : (kkField w).toNat = w.toNat % 256 := by
  simp only [kkField, BitVec.extractLsb'_toNat, Nat.shiftRight_eq_div_pow]; omega

theorem nnnField_toNat (w : Word) : (nnnField w).toNat = w.toNat % 4096 := by
  simp only [nnnField, BitVec.extractLsb'_toNat, Nat.shiftRight_eq_div_pow]; omega

theorem highByte_toNat (w : Word) : (highByte w).toNat = w.toNat / 256 := by
  have := w.isLt
  simp only [highByte, BitVec.extractLsb'_toNat, Nat.shiftRight_eq_div_pow]; omega

theorem lowByte_toNat (w : Word) : (lowByte w).toNat = w.toNat % 256 := by
  simp only [lowByte, BitVec.extractLsb'_toNat, Nat.shiftRight_eq_div_pow]; omega

/-! Assembled words as numbers. -/

theorem append_toNat {m n : Nat} (a : BitVec m) (b : BitVec n) : (a ++ b).toNat = a.toNat * 2 ^ n + b.toNat := by
  rw [BitVec.toNat_append, ← Nat.shiftLeft_add_eq_or_of_lt b.isLt, Nat.shiftLeft_eq]

theorem fmtNNN_toNat (op : BitVec 4) (nnn : Addr12) : (fmtNNN op nnn).toNat = op.toNat * 4096 + nnn.toNat :=
  append_toNat op nnn

theorem fmtXKK_toNat (op : BitVec 4) (x : Reg) (kk : Byte) :
    (fmtXKK op x kk).toNat = (op.toNat * 16 + x.toNat) * 256 + kk.toNat := by
  rw [show op.toNat * 16 + x.toNat = (op ++ x).toNat from (append_toNat op x).symm]
  exact append_toNat (op ++ x) kk

theorem fmtXYN_toNat (op : BitVec 4) (x y : Reg) (n : Nibble) :
    (fmtXYN op x y n).toNat = ((op.toNat * 16 + x.toNat) * 16 + y.toNat) * 16 + n.toNat := by
  rw [show op.toNat * 16 + x.toNat = (op ++ x).toNat from (append_toNat op x).symm,
    show (op ++ x).toNat * 16 + y.toNat = (op ++ x ++ y).toNat from (append_toNat (op ++ x) y).symm]
  exact append_toNat (op ++ x ++ y) n

theorem wordOfBytes_toNat (hi lo : Byte) : (wordOfBytes hi lo).toNat = hi.toNat * 256 + lo.toNat :=
  append_toNat hi lo

/-! The fields of an assembled word. -/

@[simp] theorem opField_fmtNNN (op : BitVec 4) (nnn : Addr12) : opField (fmtNNN op nnn) = op := by
  apply BitVec.eq_of_toNat_eq; rw [opField_toNat, fmtNNN_toNat]; omega

@[simp] theorem nnnField_fmtNNN (op : BitVec 4) (nnn : Addr12) : nnnField (fmtNNN op nnn) = nnn := by
  apply BitVec.eq_of_toNat_eq; rw [nnnField_toNat, fmtNNN_toNat]; omega

@[simp] theorem opField_fmtXKK (op : BitVec 4) (x : Reg) (kk : Byte) : opField (fmtXKK op x kk) = op := by
  apply BitVec.eq_of_toNat_eq; rw [opField_toNat, fmtXKK_toNat]; omega

@[simp] theorem xField_fmtXKK (op : BitVec 4) (x : Reg) (kk : Byte) : xField (fmtXKK op x kk) = x := by
  apply BitVec.eq_of_toNat_eq; rw [xField_toNat, fmtXKK_toNat]; omega

@[simp] theorem kkField_fmtXKK (op : BitVec 4) (x : Reg) (kk : Byte) : kkField (fmtXKK op x kk) = kk := by
  apply BitVec.eq_of_toNat_eq; rw [kkField_toNat, fmtXKK_toNat]; omega

@[simp] theorem opField_fmtXYN (op : BitVec 4) (x y : Reg) (n : Nibble) : opField (fmtXYN op x y n) = op := by
  apply BitVec.eq_of_toNat_eq; rw [opField_toNat, fmtXYN_toNat]; omega

@[simp] theorem xField_fmtXYN (op : BitVec 4) (x y : Reg) (n : Nibble) : xField (fmtXYN op x y n) = x := by
  apply BitVec.eq_of_toNat_eq; rw [xField_toNat, fmtXYN_toNat]; omega

@[simp] theorem yField_fmtXYN (op : BitVec 4) (x y : Reg) (n : Nibble) : yField (fmtXYN op x y n) = y := by
  apply BitVec.eq_of_toNat_eq; rw [yField_toNat, fmtXYN_toNat]; omega

@[simp] theorem nField_fmtXYN (op : BitVec 4) (x y : Reg) (n : Nibble) : nField (fmtXYN op x y n) = n := by
  apply BitVec.eq_of_toNat_eq; rw [nField_toNat, fmtXYN_toNat]; omega

/-! A word is its fields. -/

theorem fmtNNN_fields (w : Word) : fmtNNN (opField w) (nnnField w) = w := by
  apply BitVec.eq_of_toNat_eq; rw [fmtNNN_toNat, opField_toNat, nnnField_toNat]; omega

theorem fmtXKK_fields (w : Word) : fmtXKK (opField w) (xField w) (kkField w) = w := by
  apply BitVec.eq_of_toNat_eq; rw [fmtXKK_toNat, opField_toNat, xField_toNat, kkField_toNat]; omega

theorem fmtXYN_fields (w : Word) : fmtXYN (opField w) (xField w) (yField w) (nField w) = w := by
  apply BitVec.eq_of_toNat_eq; rw [fmtXYN_toNat, opField_toNat, xField_toNat, yField_toNat, nField_toNat]; omega

/-! Words and bytes. -/

@[simp] theorem wordOfBytes_bytes (w : Word) : wordOfBytes (highByte w) (lowByte w) = w := by
  apply BitVec.eq_of_toNat_eq; rw [wordOfBytes_toNat, highByte_toNat, lowByte_toNat]; omega

@[simp] theorem highByte_wordOfBytes (hi lo : Byte) : highByte (wordOfBytes hi lo) = hi := by
  apply BitVec.eq_of_toNat_eq; rw [highByte_toNat, wordOfBytes_toNat]; omega

@[simp] theorem lowByte_wordOfBytes (hi lo : Byte) : lowByte (wordOfBytes hi lo) = lo := by
  apply BitVec.eq_of_toNat_eq; rw [lowByte_toNat, wordOfBytes_toNat]; omega

@[simp] theorem decodeBytes_pair (hi lo : Byte) (rest : List Byte) :
    decodeBytes (hi :: lo :: rest) = decodeWord (wordOfBytes hi lo) := rfl

/-! Bits of an assembled word, and what the masks of the opcode map keep of it. -/

theorem getLsbD_fmtNNN (op : BitVec 4) (nnn : Addr12) (k : Nat) :
    (fmtNNN op nnn).getLsbD k = if k < 12 then nnn.getLsbD k else op.getLsbD (k - 12) :=
  BitVec.getLsbD_append

theorem getLsbD_fmtXKK (op : BitVec 4) (x : Reg) (kk : Byte) (k : Nat) :
    (fmtXKK op x kk).getLsbD k =
      if k < 8 then kk.getLsbD k else if k - 8 < 4 then x.getLsbD (k - 8) else op.getLsbD (k - 8 - 4) :=
  BitVec.getLsbD_append.trans (by rw [BitVec.getLsbD_append])

theorem getLsbD_fmtXYN (op : BitVec 4) (x y : Reg) (n : Nibble) (k : Nat) :
    (fmtXYN op x y n).getLsbD k =
      if k < 4 then n.getLsbD k else if k - 4 < 4 then y.getLsbD (k - 4)
      else if k - 4 - 4 < 4 then x.getLsbD (k - 4 - 4) else op.getLsbD (k - 4 - 4 - 4) :=
  BitVec.getLsbD_append.trans (by rw [BitVec.getLsbD_append, BitVec.getLsbD_append])

theorem fmtNNN_and_op (op : BitVec 4) (nnn : Addr12) : fmtNNN op nnn &&& 0xF000 = fmtNNN op 0 := by
  have hm : ∀ k < 16, (0xF000 : Word).getLsbD k = decide (12 ≤ k) := by decide
  apply BitVec.eq_of_getLsbD_eq
  intro k hk
  simp only [BitVec.getLsbD_and, getLsbD_fmtNNN, hm k hk]
  by_cases h : k < 12 <;> simp [h]
  omega

theorem fmtXKK_and_op (op : BitVec 4) (x : Reg) (kk : Byte) : fmtXKK op x kk &&& 0xF000 = fmtXKK op 0 0 := by
  have hm : ∀ k < 16, (0xF000 : Word).getLsbD k = decide (12 ≤ k) := by decide
  apply BitVec.eq_of_getLsbD_eq
  intro k hk
  simp only [BitVec.getLsbD_and, getLsbD_fmtXKK, hm k hk]
  by_cases h : 12 ≤ k
  · have h1 : ¬ k < 8 := by omega
    have h2 : ¬ k - 8 < 4 := by omega
    simp [h, h1, h2]
  · by_cases h1 : k < 8
    · simp [h, h1]
    · have h2 : k - 8 < 4 := by omega
      simp [h, h1, h2]

theorem fmtXYN_and_op (op : BitVec 4) (x y : Reg) (n : Nibble) : fmtXYN op x y n &&& 0xF000 = fmtXYN op 0 0 0 := by
  have hm : ∀ k < 16, (0xF000 : Word).getLsbD k = decide (12 ≤ k) := by decide
  apply BitVec.eq_of_getLsbD_eq
  intro k hk
  simp only [BitVec.getLsbD_and, getLsbD_fmtXYN, hm k hk]
  split_ifs <;> simp <;> omega

theorem fmtXYN_and_op_n (op : BitVec 4) (x y : Reg) (n : Nibble) :
    fmtXYN op x y n &&& 0xF00F = fmtXYN op 0 0 n := by
  have hm : ∀ k < 16, (0xF00F : Word).getLsbD k = decide (12 ≤ k ∨ k < 4) := by decide
  apply BitVec.eq_of_getLsbD_eq
  intro k hk
  simp only [BitVec.getLsbD_and, getLsbD_fmtXYN, hm k hk]
  split_ifs <;> simp <;> omega

theorem fmtXKK_and_op_kk (op : BitVec 4) (x : Reg) (kk : Byte) :
    fmtXKK op x kk &&& 0xF0FF = fmtXKK op 0 kk := by
  have hm : ∀ k < 16, (0xF0FF : Word).getLsbD k = decide (12 ≤ k ∨ k < 8) := by decide
  apply BitVec.eq_of_getLsbD_eq
  intro k hk
  simp only [BitVec.getLsbD_and, getLsbD_fmtXKK, hm k hk]
  split_ifs <;> simp <;> omega

/-! The decoder, family by family: cited instead of unfolding its match. -/

theorem decodeWord_family0 {w : Word} (h : opField w = 0x0) : decodeWord w = decodeFamily0 w := by
  have h : (opField w).toNat = 0 := by rw [h]; rfl
  simp only [decodeWord, h]

theorem decodeWord_family1 {w : Word} (h : opField w = 0x1) : decodeWord w = .instr (.jp (nnnField w)) := by
  have h : (opField w).toNat = 1 := by rw [h]; rfl
  simp only [decodeWord, h]

theorem decodeWord_family2 {w : Word} (h : opField w = 0x2) : decodeWord w = .instr (.call (nnnField w)) := by
  have h : (opField w).toNat = 2 := by rw [h]; rfl
  simp only [decodeWord, h]

theorem decodeWord_family3 {w : Word} (h : opField w = 0x3) : decodeWord w = .instr (.seImm (xField w) (kkField w)) := by
  have h : (opField w).toNat = 3 := by rw [h]; rfl
  simp only [decodeWord, h]

theorem decodeWord_family4 {w : Word} (h : opField w = 0x4) : decodeWord w = .instr (.sneImm (xField w) (kkField w)) := by
  have h : (opField w).toNat = 4 := by rw [h]; rfl
  simp only [decodeWord, h]

theorem decodeWord_family5 {w : Word} (h : opField w = 0x5) : decodeWord w = decodeLowNibble0 w .seReg .family5 := by
  have h : (opField w).toNat = 5 := by rw [h]; rfl
  simp only [decodeWord, h]

theorem decodeWord_family6 {w : Word} (h : opField w = 0x6) : decodeWord w = .instr (.ldImm (xField w) (kkField w)) := by
  have h : (opField w).toNat = 6 := by rw [h]; rfl
  simp only [decodeWord, h]

theorem decodeWord_family7 {w : Word} (h : opField w = 0x7) : decodeWord w = .instr (.addImm (xField w) (kkField w)) := by
  have h : (opField w).toNat = 7 := by rw [h]; rfl
  simp only [decodeWord, h]

theorem decodeWord_family8 {w : Word} (h : opField w = 0x8) : decodeWord w = decodeFamily8 (xField w) (yField w) (nField w) := by
  have h : (opField w).toNat = 8 := by rw [h]; rfl
  simp only [decodeWord, h]

theorem decodeWord_family9 {w : Word} (h : opField w = 0x9) : decodeWord w = decodeLowNibble0 w .sneReg .family9 := by
  have h : (opField w).toNat = 9 := by rw [h]; rfl
  simp only [decodeWord, h]

theorem decodeWord_familyA {w : Word} (h : opField w = 0xA) : decodeWord w = .instr (.ldI (nnnField w)) := by
  have h : (opField w).toNat = 10 := by rw [h]; rfl
  simp only [decodeWord, h]

theorem decodeWord_familyB {w : Word} (h : opField w = 0xB) : decodeWord w = .instr (.jpV0 (nnnField w)) := by
  have h : (opField w).toNat = 11 := by rw [h]; rfl
  simp only [decodeWord, h]

theorem decodeWord_familyC {w : Word} (h : opField w = 0xC) : decodeWord w = .instr (.rnd (xField w) (kkField w)) := by
  have h : (opField w).toNat = 12 := by rw [h]; rfl
  simp only [decodeWord, h]

theorem decodeWord_familyD {w : Word} (h : opField w = 0xD) : decodeWord w = .instr (.drw (xField w) (yField w) (nField w)) := by
  have h : (opField w).toNat = 13 := by rw [h]; rfl
  simp only [decodeWord, h]

theorem decodeWord_familyE {w : Word} (h : opField w = 0xE) : decodeWord w = decodeFamilyE (xField w) (kkField w) := by
  have h : (opField w).toNat = 14 := by rw [h]; rfl
  simp only [decodeWord, h]

theorem decodeWord_familyF {w : Word} (h : opField w = 0xF) : decodeWord w = decodeFamilyF (xField w) (kkField w) := by
  have h : (opField w).toNat = 15 := by rw [h]; rfl
  simp only [decodeWord, h]

/-- Every word is in one of the sixteen families. -/
theorem opField_eq_cases (w : Word) :
    opField w = 0x0 ∨ opField w = 0x1 ∨ opField w = 0x2 ∨ opField w = 0x3 ∨ opField w = 0x4 ∨ opField w = 0x5 ∨
    opField w = 0x6 ∨ opField w = 0x7 ∨ opField w = 0x8 ∨ opField w = 0x9 ∨ opField w = 0xA ∨ opField w = 0xB ∨
    opField w = 0xC ∨ opField w = 0xD ∨ opField w = 0xE ∨ opField w = 0xF := by
  generalize opField w = op
  revert op
  decide

end Sys2Proof
end

