-- ==== Sys2Proof/Laws/Flags.lean ====
section
/-! SUPPORT. What the ALU's computations give, on numbers. -/

namespace Sys2Proof.Machine

@[simp] theorem sum8_toNat (a b : Byte) : (sum8 a b).toNat = (a.toNat + b.toNat) % 256 := by
  simp [sum8]

theorem carry_iff (a b : Byte) : carry a b = true ↔ 255 < a.toNat + b.toNat := by
  simp [carry]

@[simp] theorem diff8_toNat (a b : Byte) : (diff8 a b).toNat = (a.toNat + 256 - b.toNat) % 256 := by
  have := a.isLt; have := b.isLt
  simp only [diff8, BitVec.toNat_ofInt]
  omega

theorem greater_iff (a b : Byte) : greater a b = true ↔ b.toNat < a.toNat := by
  simp [greater]

@[simp] theorem shr1_toNat (a : Byte) : (shr1 a).toNat = a.toNat / 2 := by
  have := a.isLt
  simp [shr1]; omega

theorem lowBit_iff (a : Byte) : lowBit a = true ↔ a.toNat % 2 = 1 := by
  simp [lowBit, BitVec.getLsbD, Nat.testBit_zero]

@[simp] theorem shl1_toNat (a : Byte) : (shl1 a).toNat = 2 * a.toNat % 256 := by
  simp [shl1]

theorem highBit_iff (a : Byte) : highBit a = true ↔ 128 ≤ a.toNat := by
  have := a.isLt
  simp only [highBit, BitVec.getLsbD, Nat.testBit_eq_decide_div_mod_eq, decide_eq_true_eq]
  omega

end Sys2Proof.Machine
end

