-- ==== Sys2Proof/Laws/Framebuffer.lean ====
section
/-! SUPPORT. Pixels after each operation of the draw unit: one hit, the columns of a row, a row, a sprite. The loops of
43_display.md R136 are shown equal to their closed form, each pixel looking at one sprite bit (R137 (a)). -/

namespace Sys2Proof.Machine

@[simp] theorem Framebuffer.pixel_clear (y : Fin 32) (x : Fin 64) : Framebuffer.clear.pixel y x = false := by
  simp [Framebuffer.pixel, Framebuffer.clear]

@[simp] theorem Framebuffer.pixel_flip (fb : Framebuffer) (y q : Fin 32) (x p : Fin 64) :
    (fb.flip y x).pixel q p = (fb.pixel q p ^^ decide (q = y ∧ p = x)) := by
  have hx := p.isLt
  unfold Framebuffer.pixel Framebuffer.flip
  by_cases hy : y = q
  · subst hy
    simp [Fin.ext_iff, eq_comm]
  · have hy' : ¬ (y.val = q.val) := fun h => hy (Fin.ext h)
    have hq : ¬ q = y := fun h => hy h.symm
    simp [hy', hq]

/-- Two framebuffers with the same pixels are the same. -/
theorem Framebuffer.ext_pixel {f g : Framebuffer} (h : ∀ y x, f.pixel y x = g.pixel y x) : f = g := by
  apply Vector.ext
  intro i hi
  apply BitVec.eq_of_getLsbD_eq
  intro j hj
  exact h ⟨i, hi⟩ ⟨j, hj⟩

@[simp] theorem fbColumn_val (n : Nat) : (fbColumn n).val = n % 64 := rfl

@[simp] theorem fbRow_val (n : Nat) : (fbRow n).val = n % 32 := rfl

theorem eq_fbColumn_iff (p : Fin 64) (n : Nat) : p = fbColumn n ↔ p.val = n % 64 := by
  rw [Fin.ext_iff, fbColumn_val]

theorem eq_fbRow_iff (q : Fin 32) (n : Nat) : q = fbRow n ↔ q.val = n % 32 := by
  rw [Fin.ext_iff, fbRow_val]

theorem Framebuffer.grid_getElem? (fb : Framebuffer) {k : Nat} (h : k < 2048) :
    fb.grid[k]? = some (fb.pixel (fbRow (k / 64)) (fbColumn k)) := by
  rw [Framebuffer.grid, List.getElem?_map, List.getElem?_range h]; rfl

/-- From `d` to `d'` exactly the pixels `P` are flipped, and a collision is one of them that was on. -/
def Draw.Flips (d d' : Draw) (P : Fin 32 → Fin 64 → Prop) : Prop :=
  (∀ q p, d'.fb.pixel q p = true ↔ (d.fb.pixel q p = true ↔ ¬ P q p)) ∧
    (d'.collision = true ↔ d.collision = true ∨ ∃ q p, P q p ∧ d.fb.pixel q p = true)

theorem Draw.flips_refl (d : Draw) {P : Fin 32 → Fin 64 → Prop} (h : ∀ q p, ¬ P q p) : d.Flips d P := by
  simp [Draw.Flips, h]

theorem Draw.flips_hit (d : Draw) (y : Fin 32) (x : Fin 64) : d.Flips (d.hit y x) fun q p => q = y ∧ p = x := by
  refine ⟨fun q p => ?_, ?_⟩
  · by_cases h : q = y ∧ p = x <;> simp [Draw.hit, h]
  · simp [Draw.hit, and_assoc]

/-- Two draws of disjoint pixel sets are one draw of their union. -/
theorem Draw.Flips.trans {d d' d'' : Draw} {P Q R : Fin 32 → Fin 64 → Prop} (h : d.Flips d' P) (h' : d'.Flips d'' Q)
    (hd : ∀ q p, P q p → ¬ Q q p) (hR : ∀ q p, R q p ↔ P q p ∨ Q q p) : d.Flips d'' R := by
  refine ⟨fun q p => ?_, ?_⟩
  · have := hd q p
    rw [h'.1, h.1, hR]; tauto
  · rw [h'.2, h.2, or_assoc]
    refine or_congr_right ⟨?_, ?_⟩
    · rintro (⟨q, p, hp, hf⟩ | ⟨q, p, hq, hf⟩)
      · exact ⟨q, p, (hR q p).mpr (.inl hp), hf⟩
      · have hp : ¬ P q p := fun hp => hd q p hp hq
        exact ⟨q, p, (hR q p).mpr (.inr hq), ((h.1 q p).mp hf).mpr hp⟩
    · rintro ⟨q, p, hr, hf⟩
      by_cases hp : P q p
      · exact .inl ⟨q, p, hp, hf⟩
      · exact .inr ⟨q, p, ((hR q p).mp hr).resolve_left hp, (h.1 q p).mpr (iff_of_true hf hp)⟩

/-- The pixels of framebuffer row `y` on which the columns `cs` of a sprite row have a bit of 1. -/
def RowOn (vx : Nat) (y : Fin 32) (b : Byte) (cs : List Nat) (q : Fin 32) (p : Fin 64) : Prop :=
  q = y ∧ ∃ c ∈ cs, p = fbColumn (vx + c) ∧ spriteColumn b c = true

/-- The columns of a sprite row flip their pixels, if the columns fall on different pixels. -/
theorem Draw.flips_columns (d : Draw) (vx : Nat) (y : Fin 32) (b : Byte) (cs : List Nat)
    (hc : cs.Pairwise fun c c' => fbColumn (vx + c) ≠ fbColumn (vx + c')) :
    d.Flips (d.columns vx y b cs) (RowOn vx y b cs) := by
  induction cs generalizing d with
  | nil => exact d.flips_refl (by simp [RowOn])
  | cons c cs ih =>
    rw [List.pairwise_cons] at hc
    rw [Draw.columns]
    by_cases hb : spriteColumn b c = true
    · rw [if_pos hb]
      refine (d.flips_hit y (fbColumn (vx + c))).trans (ih _ hc.2) ?_ ?_
      · rintro q p ⟨_, rfl⟩ ⟨_, c', hm, he, _⟩
        exact hc.1 c' hm he
      · intro q p
        simp only [RowOn, List.mem_cons, exists_eq_or_imp, hb, and_true]
        tauto
    · rw [if_neg hb]
      refine (d.flips_refl (P := fun _ _ => False) (by simp)).trans (ih _ hc.2) (by simp) ?_
      intro q p
      simp [RowOn, hb]

theorem fbColumn_pairwise (vx : Nat) : (List.range 8).Pairwise fun c c' => fbColumn (vx + c) ≠ fbColumn (vx + c') := by
  refine List.Pairwise.imp_of_mem (R := fun c c' => c ≠ c') ?_ (by decide)
  intro c c' h h' hne he
  have := congrArg Fin.val he
  simp only [fbColumn_val] at this
  have := List.mem_range.mp h
  have := List.mem_range.mp h'
  omega

/-- The pixels on which a sprite of rows `bs` at `(vx, vy)` has a bit of 1 (R136, R138). -/
def SpriteOn (vx vy : Nat) (bs : List Byte) (q : Fin 32) (p : Fin 64) : Prop :=
  ∃ r < bs.length, q = fbRow (vy + r) ∧ ∃ c < 8, p = fbColumn (vx + c) ∧ spriteColumn (bs.getD r 0) c = true

theorem spriteOn_cons (vx vy : Nat) (b : Byte) (bs : List Byte) (q : Fin 32) (p : Fin 64) :
    SpriteOn vx vy (b :: bs) q p ↔ RowOn vx (fbRow vy) b (List.range 8) q p ∨ SpriteOn vx (vy + 1) bs q p := by
  simp only [RowOn, List.mem_range]
  constructor
  · rintro ⟨r, hr, hq, h⟩
    cases r with
    | zero => exact .inl ⟨hq, h⟩
    | succ r => exact .inr ⟨r, Nat.lt_of_succ_lt_succ hr, by rw [hq]; congr 1; omega, by simpa using h⟩
  · rintro (⟨hq, h⟩ | ⟨r, hr, hq, h⟩)
    · exact ⟨0, by simp, hq, h⟩
    · exact ⟨r + 1, by simpa using hr, by rw [hq]; congr 1; omega, by simpa using h⟩

/-- The rows of a sprite, at most 32 of them, flip the sprite's pixels: the closed form R137 (a). -/
theorem Draw.flips_rows (d : Draw) (vx vy : Nat) (bs : List Byte) (hn : bs.length ≤ 32) :
    d.Flips (d.rows vx vy bs) (SpriteOn vx vy bs) := by
  induction bs generalizing d vy with
  | nil => exact d.flips_refl (by simp [SpriteOn])
  | cons b bs ih =>
    simp only [List.length_cons] at hn
    refine (d.flips_columns vx (fbRow vy) b (List.range 8) (fbColumn_pairwise vx)).trans
      (ih _ (vy + 1) (by omega)) ?_ (spriteOn_cons vx vy b bs)
    rintro q p ⟨rfl, _⟩ ⟨r, hr, hq, _⟩
    have := congrArg Fin.val hq
    simp only [fbRow_val] at this
    omega

/-- What a draw does: the pixels under the sprite are flipped, and it collides when one of them was on. -/
theorem drawSprite_spec (fb : Framebuffer) (vx vy : Nat) (bs : List Byte) (hn : bs.length ≤ 32) :
    (∀ q p, ((drawSprite fb vx vy bs).fb.pixel q p = true ↔ (fb.pixel q p = true ↔ ¬ SpriteOn vx vy bs q p))) ∧
    ((drawSprite fb vx vy bs).collision = true ↔ ∃ q p, SpriteOn vx vy bs q p ∧ fb.pixel q p = true) := by
  simpa [drawSprite, Draw.Flips] using Draw.flips_rows ⟨fb, false⟩ vx vy bs hn

end Sys2Proof.Machine
end

