-- ==== Sys2Proof/Laws/Memory.lean ====
section
/-! SUPPORT. Memory: what a read gives after each operation, in every memory, and that every operation keeps the canonical
form; the three access primitives, each in one lemma. -/

namespace Sys2Proof.Machine

theorem fontTable_length : fontTable.length = 80 := by decide

theorem unlistedByte_font (k : Nat) : unlistedByte (fontBase + k) = fontTable.getD k 0 := by
  simp [unlistedByte]

theorem unlistedByte_zero {a : Nat} (h : 80 ≤ a) : unlistedByte a = 0 := by
  have : fontTable.length ≤ a := by rw [fontTable_length]; exact h
  simp [unlistedByte, fontBase, List.getD_eq_getElem?_getD, List.getElem?_eq_none this]

@[simp] theorem Memory.read_nil (a : Nat) : Memory.read [] a = unlistedByte a := rfl

theorem Memory.read_cons (c : Host.Cell) (m : Memory) (a : Nat) :
    Memory.read (c :: m) a = if c.1 = a then c.2 else Memory.read m a := rfl

theorem Memory.read_insert (m : Memory) (a b : Nat) (v : Byte) (h : ∀ c ∈ m, c.1 ≠ a) :
    (m.insert a v).read b = if b = a then v else m.read b := by
  induction m with
  | nil => simp [Memory.insert, Memory.read_cons, eq_comm]
  | cons c m ih =>
    have hc := h c (by simp)
    have ih := ih (fun d hd => h d (by simp [hd]))
    unfold Memory.insert
    split
    · simp [Memory.read_cons, eq_comm]
    · rw [Memory.read_cons, ih, Memory.read_cons]
      by_cases hb : b = a
      · subst hb; simp [hc]
      · simp [hb]

theorem Memory.read_erase (m : Memory) (a b : Nat) :
    (m.erase a).read b = if b = a then unlistedByte a else m.read b := by
  induction m with
  | nil => by_cases hb : b = a <;> simp [Memory.erase, hb]
  | cons c m ih =>
    unfold Memory.erase at ih ⊢
    rw [List.filter_cons]
    split
    · next hc =>
      have hc : c.1 ≠ a := by simpa using hc
      rw [Memory.read_cons, ih, Memory.read_cons]
      by_cases hb : b = a
      · subst hb; simp [hc]
      · simp [hb]
    · next hc =>
      have hc : c.1 = a := by simpa using hc
      rw [ih, Memory.read_cons]
      by_cases hb : b = a
      · simp [hb]
      · simp [hb, hc, Ne.symm hb]

theorem Memory.mem_erase {m : Memory} {a : Nat} {c : Host.Cell} : c ∈ m.erase a ↔ c ∈ m ∧ c.1 ≠ a := by
  simp [Memory.erase]

/-- A read after a write: the written byte there, the old one elsewhere. -/
@[simp] theorem Memory.read_write (m : Memory) (a b : Nat) (v : Byte) :
    (m.write a v).read b = if b = a then v else m.read b := by
  unfold Memory.write
  split
  · next h => rw [Memory.read_erase, h]
  · rw [Memory.read_insert _ _ _ _ (fun c hc => (Memory.mem_erase.mp hc).2), Memory.read_erase]
    split <;> rfl

theorem Memory.mem_insert {m : Memory} {a : Nat} {v : Byte} {c : Host.Cell} :
    c ∈ m.insert a v ↔ c = (a, v) ∨ c ∈ m := by
  induction m with
  | nil => simp [Memory.insert]
  | cons d m ih =>
    unfold Memory.insert
    split
    · simp
    · simp only [List.mem_cons, ih]; tauto

theorem Memory.insert_pairwise {m : Memory} {a : Nat} {v : Byte} (hm : m.Pairwise (fun c d => c.1 < d.1))
    (ha : ∀ c ∈ m, c.1 ≠ a) : (m.insert a v).Pairwise (fun c d => c.1 < d.1) := by
  induction m with
  | nil => simp [Memory.insert]
  | cons d m ih =>
    rw [List.pairwise_cons] at hm
    have hd := ha d (by simp)
    unfold Memory.insert
    split
    · next h =>
      refine List.pairwise_cons.mpr ⟨fun c hc => ?_, List.pairwise_cons.mpr hm⟩
      rcases List.mem_cons.mp hc with rfl | hc
      · exact h
      · exact lt_trans h (hm.1 c hc)
    · next h =>
      refine List.pairwise_cons.mpr ⟨fun c hc => ?_, ih hm.2 fun c hc => ha c (by simp [hc])⟩
      rcases Memory.mem_insert.mp hc with rfl | hc
      · exact lt_of_le_of_ne (not_lt.mp h) hd
      · exact hm.1 c hc

theorem Memory.erase_wf {m : Memory} (a : Nat) (h : m.wf) : (m.erase a).wf :=
  ⟨h.1.filter _, fun c hc => h.2 c (Memory.mem_erase.mp hc).1⟩

/-- A store inside memory keeps the canonical form. -/
theorem Memory.write_wf {m : Memory} {a : Nat} (v : Byte) (h : m.wf) (ha : a < Config.memSize) : (m.write a v).wf := by
  unfold Memory.write
  split
  · exact Memory.erase_wf a h
  · next hv =>
    have he := Memory.erase_wf a h
    refine ⟨Memory.insert_pairwise he.1 fun c hc => (Memory.mem_erase.mp hc).2, fun c hc => ?_⟩
    rcases Memory.mem_insert.mp hc with rfl | hc
    · exact ⟨ha, hv⟩
    · exact he.2 c hc

theorem Memory.nil_wf : Memory.wf [] := ⟨List.Pairwise.nil, fun _ hc => absurd hc List.not_mem_nil⟩

/-- What a byte reads as after stores of a list of bytes. -/
theorem Memory.read_writeBytes (m : Memory) (base a : Nat) (bs : List Byte) :
    (m.writeBytes base bs).read a =
      if base ≤ a ∧ a < base + bs.length then bs.getD (a - base) 0 else m.read a := by
  induction bs generalizing m base with
  | nil =>
    have h : ¬ (base ≤ a ∧ a < base + ([] : List Byte).length) := by simp
    rw [if_neg h, Memory.writeBytes]
  | cons b bs ih =>
    simp only [Memory.writeBytes]
    rw [ih, Memory.read_write]
    simp only [List.length_cons]
    by_cases h1 : a = base
    · subst h1
      have h2 : ¬ (a + 1 ≤ a ∧ a < a + 1 + bs.length) := by omega
      have h3 : a ≤ a ∧ a < a + (bs.length + 1) := by omega
      rw [if_neg h2, if_pos h3]
      simp
    · by_cases h2 : base + 1 ≤ a ∧ a < base + 1 + bs.length
      · have h3 : base ≤ a ∧ a < base + (bs.length + 1) := by omega
        rw [if_pos h2, if_pos h3]
        have h4 : a - base = (a - (base + 1)) + 1 := by omega
        rw [h4, List.getD_cons_succ]
      · have h3 : ¬ (base ≤ a ∧ a < base + (bs.length + 1)) := by omega
        rw [if_neg h2, if_neg h3, if_neg h1]

theorem Memory.writeBytes_wf {m : Memory} {base : Nat} {bs : List Byte} (h : m.wf)
    (hb : base + bs.length ≤ Config.memSize) : (m.writeBytes base bs).wf := by
  induction bs generalizing m base with
  | nil => exact h
  | cons b bs ih =>
    simp only [List.length_cons] at hb
    exact ih (Memory.write_wf b h (by omega)) (by omega)

/-- After installing a font its bytes are read at `FONT_BASE`, and every other byte is as before. -/
theorem Memory.read_installFont (m : Memory) (font : Font) (a : Nat) :
    (m.installFont font).read a = if h : a < 80 then font[a] else m.read a := by
  rw [Memory.installFont, Memory.read_writeBytes]
  by_cases h : a < 80 <;> simp [fontBase, h]

theorem Memory.installFont_wf {m : Memory} (font : Font) (h : m.wf) : (m.installFont font).wf :=
  Memory.writeBytes_wf h (by simp [fontBase, Config.memSize])

/-- The default font is what memory without a listed cell holds. -/
theorem Memory.installFont_default : Memory.installFont [] defaultFont = [] := by decide

@[simp] theorem Memory.readBytes_length (m : Memory) (a n : Nat) : (m.readBytes a n).length = n := by
  induction n generalizing a with
  | zero => rfl
  | succ n ih => simp [Memory.readBytes, ih]

/-- The `k`-th of `n` bytes read is the byte at `a + k`. -/
theorem Memory.readBytes_getElem? (m : Memory) (a n k : Nat) (h : k < n) :
    (m.readBytes a n)[k]? = some (m.read (a + k)) := by
  induction n generalizing a k with
  | zero => omega
  | succ n ih =>
    cases k with
    | zero => simp [Memory.readBytes]
    | succ k =>
      have := ih (a + 1) k (by omega)
      simp only [Memory.readBytes, List.getElem?_cons_succ, this]
      congr 2; omega

theorem Memory.readBytes_getD (m : Memory) (a n k : Nat) (h : k < n) :
    (m.readBytes a n).getD k 0 = m.read (a + k) := by
  simp [List.getD_eq_getElem?_getD, Memory.readBytes_getElem? m a n k h]

theorem spanOk_iff (base n : Nat) : spanOk base n = true ↔ n = 0 ∨ base + n ≤ 4096 := by
  rw [spanOk, Bool.or_eq_true, beq_iff_eq, decide_eq_true_iff]; rfl

/-- `MemRead` of a transfer: the bytes when all addresses exist, else the fault with the highest. -/
theorem memReadSpan_eq (m : Memory) (base n : Nat) :
    memReadSpan m base n =
      if n = 0 ∨ base + n ≤ 4096 then .ok (m.readBytes base n) else .error (.addressOutOfRange (base + n - 1)) := by
  unfold memReadSpan
  by_cases h : n = 0 ∨ base + n ≤ 4096
  · rw [if_pos ((spanOk_iff _ _).mpr h), if_pos h]
  · rw [if_neg (mt (spanOk_iff _ _).mp h), if_neg h]

/-- `MemWrite` of a transfer: the stores when all addresses exist, else the fault with the highest. -/
theorem memWriteSpan_eq (m : Memory) (base : Nat) (bs : List Byte) :
    memWriteSpan m base bs =
      if bs.length = 0 ∨ base + bs.length ≤ 4096 then .ok (m.writeBytes base bs)
      else .error (.addressOutOfRange (base + bs.length - 1)) := by
  unfold memWriteSpan
  by_cases h : bs.length = 0 ∨ base + bs.length ≤ 4096
  · rw [if_pos ((spanOk_iff _ _).mpr h), if_pos h]
  · rw [if_neg (mt (spanOk_iff _ _).mp h), if_neg h]

/-- `MemRead(a, 2)`: big-endian, and the fault records `a`. -/
theorem memReadWord_eq (m : Memory) (a : Nat) :
    memReadWord m a =
      if a ≤ 0xFFE then .ok (wordOfBytes (m.read a) (m.read (a + 1))) else .error (.addressOutOfRange a) := by
  unfold memReadWord
  by_cases h : a ≤ 0xFFE
  · rw [if_pos ((spanOk_iff _ _).mpr (by omega)), if_pos h]
  · rw [if_neg (mt (spanOk_iff _ _).mp (by omega)), if_neg h]

end Sys2Proof.Machine
end

