-- ==== Sys2Proof/Laws/Ops.lean ====
section
/-! SUPPORT. One lemma per shared operation on registers, the stack, the keypad and the operand forms, saying everything the
operation does. -/

namespace Sys2Proof.Machine

variable (s : State)

/-! Registers. -/

@[simp] theorem State.getV_setV (r q : Reg) (b : Byte) : (s.setV r b).getV q = if q = r then b else s.getV q := by
  unfold State.setV State.getV
  rw [Vector.getElem_set]
  simp only [BitVec.toNat_inj, eq_comm]

@[simp] theorem State.getKey_setKey (k q : Reg) (b : Bool) :
    (s.setKey k b).getKey q = if q = k then b else s.getKey q := by
  unfold State.setKey State.getKey
  rw [Vector.getElem_set]
  simp only [BitVec.toNat_inj, eq_comm]

@[simp] theorem State.getV_setI (w : Word) (q : Reg) : (s.setI w).getV q = s.getV q := rfl
@[simp] theorem State.getV_setPc (w : Word) (q : Reg) : (s.setPc w).getV q = s.getV q := rfl
@[simp] theorem State.getV_setStack (l : List Word) (q : Reg) : (s.setStack l).getV q = s.getV q := rfl
@[simp] theorem State.getV_setDt (b : Byte) (q : Reg) : (s.setDt b).getV q = s.getV q := rfl
@[simp] theorem State.getV_setSt (b : Byte) (q : Reg) : (s.setSt b).getV q = s.getV q := rfl
@[simp] theorem State.getV_setKey (k : Reg) (b : Bool) (q : Reg) : (s.setKey k b).getV q = s.getV q := rfl
@[simp] theorem State.getV_setFb (f : Framebuffer) (q : Reg) : (s.setFb f).getV q = s.getV q := rfl
@[simp] theorem State.getV_setMem (m : Memory) (q : Reg) : (s.setMem m).getV q = s.getV q := rfl
@[simp] theorem State.getV_setMode (m : Mode) (q : Reg) : (s.setMode m).getV q = s.getV q := rfl
@[simp] theorem State.getV_setWaitx (r q : Reg) : (s.setWaitx r).getV q = s.getV q := rfl
@[simp] theorem State.getV_countDraw (q : Reg) : s.countDraw.getV q = s.getV q := rfl

@[simp] theorem State.getKey_setV (r : Reg) (b : Byte) (q : Reg) : (s.setV r b).getKey q = s.getKey q := rfl
@[simp] theorem State.getKey_setI (w : Word) (q : Reg) : (s.setI w).getKey q = s.getKey q := rfl
@[simp] theorem State.getKey_setPc (w : Word) (q : Reg) : (s.setPc w).getKey q = s.getKey q := rfl
@[simp] theorem State.getKey_setStack (l : List Word) (q : Reg) : (s.setStack l).getKey q = s.getKey q := rfl
@[simp] theorem State.getKey_setDt (b : Byte) (q : Reg) : (s.setDt b).getKey q = s.getKey q := rfl
@[simp] theorem State.getKey_setSt (b : Byte) (q : Reg) : (s.setSt b).getKey q = s.getKey q := rfl
@[simp] theorem State.getKey_setFb (f : Framebuffer) (q : Reg) : (s.setFb f).getKey q = s.getKey q := rfl
@[simp] theorem State.getKey_setMem (m : Memory) (q : Reg) : (s.setMem m).getKey q = s.getKey q := rfl
@[simp] theorem State.getKey_setMode (m : Mode) (q : Reg) : (s.setMode m).getKey q = s.getKey q := rfl
@[simp] theorem State.getKey_setWaitx (r q : Reg) : (s.setWaitx r).getKey q = s.getKey q := rfl
@[simp] theorem State.getKey_countDraw (q : Reg) : s.countDraw.getKey q = s.getKey q := rfl

/-- A flag write sets `VF` to 0 or 1 and nothing else. -/
@[simp] theorem State.getV_setVF (c : Bool) (q : Reg) :
    (s.setVF c).getV q = if q = flagReg then (if c then 1 else 0) else s.getV q := by
  simp [State.setVF]

/-- `V[x]` and then the flag: `VF` holds the flag even when `x` is F (R100). -/
theorem State.getV_setResultFlag (x q : Reg) (b : Byte) (c : Bool) :
    (s.setResultFlag x b c).getV q = if q = flagReg then (if c then 1 else 0) else if q = x then b else s.getV q := by
  simp [State.setResultFlag]

/-! The state after reset. -/

@[simp] theorem State.reset_read (a : Nat) : State.reset.mem.read a = unlistedByte a := rfl

@[simp] theorem State.reset_pixel (y : Fin 32) (x : Fin 64) : State.reset.fb.pixel y x = false := by
  simp [State.reset, Framebuffer.pixel]

@[simp] theorem State.reset_getV (r : Reg) : State.reset.getV r = 0 := by
  simp [State.reset, State.getV]

@[simp] theorem State.reset_getKey (k : Reg) : State.reset.getKey k = false := by
  simp [State.reset, State.getKey]

/-! Reset with a font. -/

/-- The state after reset is the one with the default font. -/
theorem State.resetWith_default : State.resetWith defaultFont = State.reset := by
  show State.reset.setMem (Memory.installFont [] defaultFont) = _
  rw [Memory.installFont_default]; rfl

/-- The font shows in memory alone: its bytes at `0x000..0x04F`, 0 above. -/
theorem State.resetWith_read (font : Font) (a : Nat) :
    (State.resetWith font).mem.read a = if h : a < 80 then font[a] else 0 := by
  rw [State.resetWith, State.setMem_mem, Memory.read_installFont]
  split
  · rfl
  · next h => exact unlistedByte_zero (not_lt.mp h)

theorem State.resetWith_wf (font : Font) : (State.resetWith font).mem.wf := Memory.installFont_wf font Memory.nil_wf

@[simp] theorem State.resetWith_v (font : Font) : (State.resetWith font).v = State.reset.v := rfl
@[simp] theorem State.resetWith_i (font : Font) : (State.resetWith font).i = State.reset.i := rfl
@[simp] theorem State.resetWith_pc (font : Font) : (State.resetWith font).pc = State.reset.pc := rfl
@[simp] theorem State.resetWith_stack (font : Font) : (State.resetWith font).stack = State.reset.stack := rfl
@[simp] theorem State.resetWith_dt (font : Font) : (State.resetWith font).dt = State.reset.dt := rfl
@[simp] theorem State.resetWith_st (font : Font) : (State.resetWith font).st = State.reset.st := rfl
@[simp] theorem State.resetWith_keys (font : Font) : (State.resetWith font).keys = State.reset.keys := rfl
@[simp] theorem State.resetWith_fb (font : Font) : (State.resetWith font).fb = State.reset.fb := rfl
@[simp] theorem State.resetWith_mode (font : Font) : (State.resetWith font).mode = State.reset.mode := rfl
@[simp] theorem State.resetWith_waitx (font : Font) : (State.resetWith font).waitx = State.reset.waitx := rfl
@[simp] theorem State.resetWith_draws (font : Font) : (State.resetWith font).draws = State.reset.draws := rfl

/-! The call stack. -/

theorem State.sp_eq : s.sp = s.stack.length := rfl

/-- `Push` either finds the stack at its bound or puts the value on top. -/
theorem State.push_eq (v : Word) :
    s.push v = if 16 ≤ s.sp then .error .stackOverflow else .ok (s.setStack (v :: s.stack)) := rfl

theorem State.pop_nil (h : s.stack = []) : s.pop = .error .stackUnderflow := by simp [State.pop, h]

theorem State.pop_cons {v : Word} {rest : List Word} (h : s.stack = v :: rest) :
    s.pop = .ok (v, s.setStack rest) := by simp [State.pop, h]

/-- The newest entry is `STACK[SP-1]`. -/
theorem State.stackEntry_top {v : Word} {rest : List Word} (h : s.stack = v :: rest) :
    s.stackEntry rest.length = some v := by
  simp [State.stackEntry, h]

/-- Older entries keep their index when one is pushed on top of them. -/
theorem State.stackEntry_cons {v : Word} {rest : List Word} {k : Nat} (h : s.stack = v :: rest) (hk : k < rest.length) :
    s.stackEntry k = rest.reverse[k]? := by
  simp [State.stackEntry, h, List.getElem?_append_left, hk]

/-! The program counter. -/

@[simp] theorem State.advance_pc : s.advance.pc = s.pc + 2 := rfl

@[simp] theorem State.retreat_advance : s.advance.retreat = s := by
  cases s; simp [State.advance, State.retreat, State.setPc]

@[simp] theorem State.skipIf_pc (c : Bool) : (s.skipIf c).pc = if c then s.pc + 2 else s.pc := by
  cases c <;> rfl

/-- A skip writes `pc` and nothing else. -/
theorem State.skipIf_eq (c : Bool) : s.skipIf c = s.setPc (if c then s.pc + 2 else s.pc) := by
  cases c <;> rfl

/-! The keypad. -/

@[simp] theorem mem_allRegs (r : Reg) : r ∈ allRegs := by
  simp only [allRegs, List.mem_map, List.mem_range]
  exact ⟨r.toNat, r.isLt, by simp⟩

@[simp] theorem State.mem_pressedKeys (k : Reg) : k ∈ s.pressedKeys ↔ s.getKey k = true := by
  simp [State.pressedKeys]

/-- `KeySelect` is defined exactly when a key is pressed. -/
theorem State.keySelect_none : s.keySelect = none ↔ ∀ k, s.getKey k = false := by
  have hm := s.mem_pressedKeys
  unfold State.keySelect
  split
  · next h => simp only [h, List.not_mem_nil, false_iff, Bool.not_eq_true] at hm; simp [hm]
  · next k h => simp only [reduceCtorEq, false_iff]; exact fun hk => by simpa [hk] using (hm k).mp (by simp [h])
  · next k k' ks h => simp only [reduceCtorEq, false_iff]; exact fun hk => by simpa [hk] using (hm k).mp (by simp [h])

/-- The key selected is a pressed one. -/
theorem State.keySelect_some {k : Reg} (h : s.keySelect = some k) : s.getKey k = true := by
  have hm := s.mem_pressedKeys
  unfold State.keySelect at h
  split at h
  · simp at h
  · next j hj => cases h; exact (hm _).mp (by simp [hj])
  · next j j' ks hj =>
    have hlt : Config.keyChoice s.draws % (ks.length + 2) < (j :: j' :: ks).length :=
      Nat.mod_lt _ (Nat.succ_pos _)
    rw [List.getD_eq_getElem?_getD, List.getElem?_eq_getElem hlt, Option.getD_some, Option.some_inj] at h
    exact (hm _).mp (by rw [hj, ← h]; exact List.getElem_mem hlt)

/-- With one key pressed the selected key is that key. -/
theorem State.keySelect_single {k : Reg} (hk : s.getKey k = true) (h : ∀ j, s.getKey j = true → j = k) :
    s.keySelect = some k := by
  cases hs : s.keySelect with
  | none => simp [s.keySelect_none.mp hs] at hk
  | some j => rw [h j (s.keySelect_some hs)]

@[simp] theorem State.getV_recordKey (r k q : Reg) :
    (s.recordKey r k).getV q = if q = r then k.setWidth 8 else s.getV q := by
  simp [State.recordKey]

/-! Operand forms. -/

@[simp] theorem target_toNat (nnn : Addr12) : (target nnn).toNat = nnn.toNat := by
  have := nnn.isLt
  simp [target]; omega

@[simp] theorem glyphAddress_toNat (b : Byte) : (glyphAddress b).toNat = 5 * b.toNat := by
  have := b.isLt
  simp [glyphAddress]; omega

@[simp] theorem State.regRange_length (x : Reg) : (s.regRange x).length = x.toNat + 1 := by
  simp [State.regRange, rangeCount]

theorem State.regRange_getD (x : Reg) {k : Nat} (h : k ≤ x.toNat) :
    (s.regRange x).getD k 0 = s.getV (BitVec.ofNat 4 k) := by
  have hk : k < x.toNat + 1 := by omega
  simp [State.regRange, rangeCount, List.getD_eq_getElem?_getD, List.getElem?_map, List.getElem?_range hk]

/-- Loading a list of bytes into `V[k], V[k+1], ...` writes those registers, each with its byte, and nothing else. -/
theorem State.getV_loadRegs (k : Nat) (bs : List Byte) (q : Reg) (h : k + bs.length ≤ 16) :
    (s.loadRegs k bs).getV q =
      if k ≤ q.toNat ∧ q.toNat < k + bs.length then bs.getD (q.toNat - k) 0 else s.getV q := by
  induction bs generalizing s k with
  | nil =>
    have : ¬ (k ≤ q.toNat ∧ q.toNat < k + ([] : List Byte).length) := by simp
    rw [if_neg this]; rfl
  | cons b bs ih =>
    simp only [List.length_cons] at h ⊢
    have hk : q = BitVec.ofNat 4 k ↔ q.toNat = k := by
      rw [← BitVec.toNat_inj, BitVec.toNat_ofNat, Nat.mod_eq_of_lt (by omega)]
    rw [State.loadRegs, ih _ _ (by omega), State.getV_setV]
    by_cases h1 : q.toNat = k
    · have h2 : ¬ (k + 1 ≤ q.toNat ∧ q.toNat < k + 1 + bs.length) := by omega
      have h3 : k ≤ q.toNat ∧ q.toNat < k + (bs.length + 1) := by omega
      rw [if_neg h2, if_pos h3, if_pos (hk.mpr h1), h1]; simp
    · by_cases h2 : k + 1 ≤ q.toNat ∧ q.toNat < k + 1 + bs.length
      · have h3 : k ≤ q.toNat ∧ q.toNat < k + (bs.length + 1) := by omega
        have h4 : q.toNat - k = (q.toNat - (k + 1)) + 1 := by omega
        rw [if_pos h2, if_pos h3, h4, List.getD_cons_succ]
      · have h3 : ¬ (k ≤ q.toNat ∧ q.toNat < k + (bs.length + 1)) := by omega
        rw [if_neg h2, if_neg h3, if_neg (mt hk.mp h1)]

/-- Loading registers changes no other component: the state is the old one with other registers. -/
theorem State.loadRegs_eq (k : Nat) (bs : List Byte) : s.loadRegs k bs = { s with v := (s.loadRegs k bs).v } := by
  induction bs generalizing s k with
  | nil => rfl
  | cons b bs ih => rw [State.loadRegs, ih]; rfl

end Sys2Proof.Machine
end

