-- ==== Sys2Proof/Laws/PerInstr.lean ====
section
/-! SUPPORT. The family TableRow: the word of every instruction matches its row of the opcode map (30_encoding.md R64), one
lemma per constructor. -/

namespace Sys2Proof.Laws

/-- Some row of the opcode map carries the instruction's mnemonic and matches its word. -/
def TableRow.Statement (i : Instr) : Prop :=
  ∃ r ∈ opcodeTable, r.mnemonic = mnemonicOf i ∧ r.matchesWord (encode i) = true

/-- A row of the map with the instruction's mnemonic, and the instruction's word under the row's mask. -/
theorem tableRow_of {i : Instr} (mask code : Word) (hr : ⟨mnemonicOf i, mask, code⟩ ∈ opcodeTable)
    (hw : encode i &&& mask = code) : TableRow.Statement i :=
  ⟨_, hr, rfl, by simp [Row.matchesWord, hw]⟩

theorem TableRow.sys (nnn : Addr12) : TableRow.Statement (.sys nnn) :=
  tableRow_of 0xF000 0x0000 (by simp [mnemonicOf, opcodeTable, fixedRows, fieldRows]) (fmtNNN_and_op _ _)

theorem TableRow.cls : TableRow.Statement .cls :=
  tableRow_of 0xFFFF 0x00E0 (by simp [mnemonicOf, opcodeTable, fixedRows, fieldRows]) rfl

theorem TableRow.ret : TableRow.Statement .ret :=
  tableRow_of 0xFFFF 0x00EE (by simp [mnemonicOf, opcodeTable, fixedRows, fieldRows]) rfl

theorem TableRow.jp (nnn : Addr12) : TableRow.Statement (.jp nnn) :=
  tableRow_of 0xF000 0x1000 (by simp [mnemonicOf, opcodeTable, fixedRows, fieldRows]) (fmtNNN_and_op _ _)

theorem TableRow.call (nnn : Addr12) : TableRow.Statement (.call nnn) :=
  tableRow_of 0xF000 0x2000 (by simp [mnemonicOf, opcodeTable, fixedRows, fieldRows]) (fmtNNN_and_op _ _)

theorem TableRow.seImm (x : Reg) (kk : Byte) : TableRow.Statement (.seImm x kk) :=
  tableRow_of 0xF000 0x3000 (by simp [mnemonicOf, opcodeTable, fixedRows, fieldRows]) (fmtXKK_and_op _ _ _)

theorem TableRow.sneImm (x : Reg) (kk : Byte) : TableRow.Statement (.sneImm x kk) :=
  tableRow_of 0xF000 0x4000 (by simp [mnemonicOf, opcodeTable, fixedRows, fieldRows]) (fmtXKK_and_op _ _ _)

theorem TableRow.seReg (x : Reg) (y : Reg) : TableRow.Statement (.seReg x y) :=
  tableRow_of 0xF00F 0x5000 (by simp [mnemonicOf, opcodeTable, fixedRows, fieldRows]) (fmtXYN_and_op_n _ _ _ _)

theorem TableRow.ldImm (x : Reg) (kk : Byte) : TableRow.Statement (.ldImm x kk) :=
  tableRow_of 0xF000 0x6000 (by simp [mnemonicOf, opcodeTable, fixedRows, fieldRows]) (fmtXKK_and_op _ _ _)

theorem TableRow.addImm (x : Reg) (kk : Byte) : TableRow.Statement (.addImm x kk) :=
  tableRow_of 0xF000 0x7000 (by simp [mnemonicOf, opcodeTable, fixedRows, fieldRows]) (fmtXKK_and_op _ _ _)

theorem TableRow.ldReg (x : Reg) (y : Reg) : TableRow.Statement (.ldReg x y) :=
  tableRow_of 0xF00F 0x8000 (by simp [mnemonicOf, opcodeTable, fixedRows, fieldRows]) (fmtXYN_and_op_n _ _ _ _)

theorem TableRow.orReg (x : Reg) (y : Reg) : TableRow.Statement (.orReg x y) :=
  tableRow_of 0xF00F 0x8001 (by simp [mnemonicOf, opcodeTable, fixedRows, fieldRows]) (fmtXYN_and_op_n _ _ _ _)

theorem TableRow.andReg (x : Reg) (y : Reg) : TableRow.Statement (.andReg x y) :=
  tableRow_of 0xF00F 0x8002 (by simp [mnemonicOf, opcodeTable, fixedRows, fieldRows]) (fmtXYN_and_op_n _ _ _ _)

theorem TableRow.xorReg (x : Reg) (y : Reg) : TableRow.Statement (.xorReg x y) :=
  tableRow_of 0xF00F 0x8003 (by simp [mnemonicOf, opcodeTable, fixedRows, fieldRows]) (fmtXYN_and_op_n _ _ _ _)

theorem TableRow.addReg (x : Reg) (y : Reg) : TableRow.Statement (.addReg x y) :=
  tableRow_of 0xF00F 0x8004 (by simp [mnemonicOf, opcodeTable, fixedRows, fieldRows]) (fmtXYN_and_op_n _ _ _ _)

theorem TableRow.subReg (x : Reg) (y : Reg) : TableRow.Statement (.subReg x y) :=
  tableRow_of 0xF00F 0x8005 (by simp [mnemonicOf, opcodeTable, fixedRows, fieldRows]) (fmtXYN_and_op_n _ _ _ _)

theorem TableRow.shrReg (x : Reg) (y : Reg) : TableRow.Statement (.shrReg x y) :=
  tableRow_of 0xF00F 0x8006 (by simp [mnemonicOf, opcodeTable, fixedRows, fieldRows]) (fmtXYN_and_op_n _ _ _ _)

theorem TableRow.subnReg (x : Reg) (y : Reg) : TableRow.Statement (.subnReg x y) :=
  tableRow_of 0xF00F 0x8007 (by simp [mnemonicOf, opcodeTable, fixedRows, fieldRows]) (fmtXYN_and_op_n _ _ _ _)

theorem TableRow.shlReg (x : Reg) (y : Reg) : TableRow.Statement (.shlReg x y) :=
  tableRow_of 0xF00F 0x800E (by simp [mnemonicOf, opcodeTable, fixedRows, fieldRows]) (fmtXYN_and_op_n _ _ _ _)

theorem TableRow.sneReg (x : Reg) (y : Reg) : TableRow.Statement (.sneReg x y) :=
  tableRow_of 0xF00F 0x9000 (by simp [mnemonicOf, opcodeTable, fixedRows, fieldRows]) (fmtXYN_and_op_n _ _ _ _)

theorem TableRow.ldI (nnn : Addr12) : TableRow.Statement (.ldI nnn) :=
  tableRow_of 0xF000 0xA000 (by simp [mnemonicOf, opcodeTable, fixedRows, fieldRows]) (fmtNNN_and_op _ _)

theorem TableRow.jpV0 (nnn : Addr12) : TableRow.Statement (.jpV0 nnn) :=
  tableRow_of 0xF000 0xB000 (by simp [mnemonicOf, opcodeTable, fixedRows, fieldRows]) (fmtNNN_and_op _ _)

theorem TableRow.rnd (x : Reg) (kk : Byte) : TableRow.Statement (.rnd x kk) :=
  tableRow_of 0xF000 0xC000 (by simp [mnemonicOf, opcodeTable, fixedRows, fieldRows]) (fmtXKK_and_op _ _ _)

theorem TableRow.drw (x : Reg) (y : Reg) (n : Nibble) : TableRow.Statement (.drw x y n) :=
  tableRow_of 0xF000 0xD000 (by simp [mnemonicOf, opcodeTable, fixedRows, fieldRows]) (fmtXYN_and_op _ _ _ _)

theorem TableRow.skp (x : Reg) : TableRow.Statement (.skp x) :=
  tableRow_of 0xF0FF 0xE09E (by simp [mnemonicOf, opcodeTable, fixedRows, fieldRows]) (fmtXKK_and_op_kk _ _ _)

theorem TableRow.sknp (x : Reg) : TableRow.Statement (.sknp x) :=
  tableRow_of 0xF0FF 0xE0A1 (by simp [mnemonicOf, opcodeTable, fixedRows, fieldRows]) (fmtXKK_and_op_kk _ _ _)

theorem TableRow.ldVxDt (x : Reg) : TableRow.Statement (.ldVxDt x) :=
  tableRow_of 0xF0FF 0xF007 (by simp [mnemonicOf, opcodeTable, fixedRows, fieldRows]) (fmtXKK_and_op_kk _ _ _)

theorem TableRow.ldVxK (x : Reg) : TableRow.Statement (.ldVxK x) :=
  tableRow_of 0xF0FF 0xF00A (by simp [mnemonicOf, opcodeTable, fixedRows, fieldRows]) (fmtXKK_and_op_kk _ _ _)

theorem TableRow.ldDtVx (x : Reg) : TableRow.Statement (.ldDtVx x) :=
  tableRow_of 0xF0FF 0xF015 (by simp [mnemonicOf, opcodeTable, fixedRows, fieldRows]) (fmtXKK_and_op_kk _ _ _)

theorem TableRow.ldStVx (x : Reg) : TableRow.Statement (.ldStVx x) :=
  tableRow_of 0xF0FF 0xF018 (by simp [mnemonicOf, opcodeTable, fixedRows, fieldRows]) (fmtXKK_and_op_kk _ _ _)

theorem TableRow.addI (x : Reg) : TableRow.Statement (.addI x) :=
  tableRow_of 0xF0FF 0xF01E (by simp [mnemonicOf, opcodeTable, fixedRows, fieldRows]) (fmtXKK_and_op_kk _ _ _)

theorem TableRow.ldF (x : Reg) : TableRow.Statement (.ldF x) :=
  tableRow_of 0xF0FF 0xF029 (by simp [mnemonicOf, opcodeTable, fixedRows, fieldRows]) (fmtXKK_and_op_kk _ _ _)

theorem TableRow.ldB (x : Reg) : TableRow.Statement (.ldB x) :=
  tableRow_of 0xF0FF 0xF033 (by simp [mnemonicOf, opcodeTable, fixedRows, fieldRows]) (fmtXKK_and_op_kk _ _ _)

theorem TableRow.ldMemVx (x : Reg) : TableRow.Statement (.ldMemVx x) :=
  tableRow_of 0xF0FF 0xF055 (by simp [mnemonicOf, opcodeTable, fixedRows, fieldRows]) (fmtXKK_and_op_kk _ _ _)

theorem TableRow.ldVxMem (x : Reg) : TableRow.Statement (.ldVxMem x) :=
  tableRow_of 0xF0FF 0xF065 (by simp [mnemonicOf, opcodeTable, fixedRows, fieldRows]) (fmtXKK_and_op_kk _ _ _)

end Sys2Proof.Laws
end

