-- ==== Sys2Proof/Laws/Step.lean ====
section
/-! SUPPORT. What a fetch, a step and each operation the meanings share can do, one lemma each. -/

namespace Sys2Proof.Machine

variable (s : State)

/-- A fetch gives the big-endian word at `pc`, or the range fault of `pc` (20_memory.md R43). -/
theorem fetch_eq :
    fetch s = if s.pc.toNat ≤ 0xFFE then .ok (wordOfBytes (s.mem.read s.pc.toNat) (s.mem.read (s.pc.toNat + 1)))
      else .error (.addressOutOfRange s.pc.toNat) :=
  memReadWord_eq _ _

theorem step_running (h : s.mode = .running) : step s = runningStep s := by simp [step, h]

theorem step_waiting (h : s.mode = .waitingForKey) : step s = waitingStep s := by simp [step, h]

/-- Everything a step that answers a next state can have done. -/
theorem step_next_cases {t : State} (h : step s = .next t) :
    (s.mode = .waitingForKey ∧ waitingStep s = .next t) ∨
    (∃ w r, s.mode = .running ∧ fetch s = .ok w ∧ decodeWord w = .reserved r ∧ t = s.advance) ∨
    (∃ w i, s.mode = .running ∧ fetch s = .ok w ∧ decodeWord w = .instr i ∧ exec i s.advance = .next t) := by
  cases hm : s.mode with
  | waitingForKey => exact .inl ⟨rfl, by rwa [step_waiting s hm] at h⟩
  | running =>
    rw [step_running s hm, runningStep] at h
    cases hf : fetch s with
    | error f => simp [hf, raise] at h
    | ok w =>
      simp only [hf, runWord] at h
      cases hd : decodeWord w with
      | reserved r =>
        simp only [hd, reservedStep, Host.Outcome.next.injEq] at h
        exact .inr (.inl ⟨w, r, rfl, rfl, hd, h.symm⟩)
      | instr i => exact .inr (.inr ⟨w, i, rfl, rfl, hd, by simpa [hd] using h⟩)

/-- A running step on a decoded instruction is its execution at `npc`. -/
theorem step_instr {w : Word} {i : Instr} (hm : s.mode = .running) (hf : fetch s = .ok w)
    (hd : decodeWord w = .instr i) : step s = exec i s.advance := by
  simp [step_running s hm, runningStep, hf, runWord, hd]

/-- A running step on a reserved word is the advance. -/
theorem step_reserved {w : Word} {r : Reject} (hm : s.mode = .running) (hf : fetch s = .ok w)
    (hd : decodeWord w = .reserved r) : step s = .next s.advance := by
  simp [step_running s hm, runningStep, hf, runWord, hd, reservedStep]

/-- Stores at `I`: the bytes, or the range fault of the highest address. -/
theorem storeAtI_eq (bs : List Byte) :
    storeAtI bs s =
      if bs.length = 0 ∨ s.i.toNat + bs.length ≤ 4096 then .next (s.setMem (s.mem.writeBytes s.i.toNat bs))
      else .fault (.addressOutOfRange (s.i.toNat + bs.length - 1)) := by
  unfold storeAtI State.base raise
  rw [memWriteSpan_eq]
  by_cases h : bs.length = 0 ∨ s.i.toNat + bs.length ≤ 4096
  · rw [if_pos h, if_pos h]
  · rw [if_neg h, if_neg h]

/-- A key skip: the index fault, or the skip on the key's state. -/
theorem skipOnKey_eq (x : Reg) (pressed : Bool) :
    skipOnKey x pressed s =
      if 0xF < (s.getV x).toNat then .fault (.keyIndexOutOfRange (s.getV x))
      else .next (s.setPc (if s.getKey ((s.getV x).setWidth 4) = pressed then s.pc + 2 else s.pc)) := by
  simp only [skipOnKey, raise, State.skipIf_eq, beq_iff_eq]

/-- The wait instruction: a recorded key, or the wait entered at `pc0`. -/
theorem execLdVxK_eq (x : Reg) :
    execLdVxK x s =
      match s.keySelect with
      | some k => .next (s.recordKey x k)
      | none => .next (((s.setPc (s.pc - 2)).setMode .waitingForKey).setWaitx x) := rfl

/-- The waiting step: a recorded key and the way on, or nothing. -/
theorem waitingStep_eq :
    waitingStep s =
      match s.keySelect with
      | some k => .next (((s.recordKey s.waitx k).setPc (s.pc + 2)).setMode .running)
      | none => .next s := rfl

/-- Reset with the default font: the state after reset, the model's own counter going on. -/
theorem hostReset_default : hostReset defaultFont s = { State.reset with draws := s.draws } := by
  rw [hostReset, State.resetWith_default]

@[simp] theorem hostReset_mem (font : Font) : (hostReset font s).mem = (State.resetWith font).mem := rfl

/-- A timer's tick, as a number. -/
theorem countDown_toNat (b : Byte) : (countDown b).toNat = b.toNat - 1 := by
  unfold countDown
  split
  · next h => subst h; rfl
  · next h =>
    have h' : b.toNat ≠ 0 := fun hz => h (BitVec.eq_of_toNat_eq (by simpa using hz))
    rw [BitVec.toNat_sub_of_le (by rw [BitVec.le_def]; simp; omega)]; rfl

end Sys2Proof.Machine
end

