-- ==== Sys2Proof/Tests/Slice0.lean ====
section
/-! SUPPORT. Tests. Every expected value is from 95_test_vectors.md: decode vectors of its section 2, single-step vectors T,
host vectors H; the id stands in each comment. At the end, one witness per statement with hypotheses. -/

namespace Sys2Proof.Tests

open Sys2Proof Sys2Proof.Machine Sys2Proof.Safety

/-! Helpers. -/

/-- The step that fetches the word `w` at the state's `pc`. -/
def run (s : State) (w : Nat) : Result := step (s.withFetchWord 16 w)

/-- A next state with a property. -/
def nextHas (p : State → Bool) : Result → Bool
  | .next t => p t
  | .fault _ => false
  | .refused _ => false

/-- A given fault. -/
def faultsWith (f : Fault) : Result → Bool
  | .next _ => false
  | .fault g => g == f
  | .refused _ => false

/-- The next state, or the old one. -/
def nextOf (s : State) : Result → State
  | .next t => t
  | .fault _ => s
  | .refused _ => s

/-- The state after reset, whose other components the tests change one by one. -/
abbrev s0 : State := State.reset

/-- Bytes stored from an address on. -/
def poke (s : State) (a : Nat) (bs : List Byte) : State := s.setMem (s.mem.writeBytes a bs)

/-- Registers set. -/
def regs (s : State) (l : List (Reg × Byte)) : State := l.foldl (fun t p => t.setV p.1 p.2) s

/-- The keys of a list pressed. -/
def press (s : State) (l : List Reg) : State := l.foldl (fun t k => t.setKey k true) s

/-- Pixels `(x, y)` lit. -/
def lit (s : State) (l : List (Fin 64 × Fin 32)) : State := s.setFb (l.foldl (fun f p => f.flip p.2 p.1) s.fb)

/-- A stack of `n` entries `0x202`. -/
def calls (s : State) (n : Nat) : State := s.setStack (List.replicate n 0x202)

/-- A machine waiting for a key into register `x`, its `Fx0A` under `pc`. -/
def waiting (x : Reg) : State :=
  ((s0.withFetchWord 16 (0xF00A + 256 * x.toNat)).setMode .waitingForKey).setWaitx x

/-! Well-formedness: the one check, refused and accepted. -/

theorem test_wellFormed_refuses_cls_as_sys : (Instr.sys 0x0E0).wellFormed = false := by decide
theorem test_wellFormed_refuses_ret_as_sys : (Instr.sys 0x0EE).wellFormed = false := by decide
theorem test_wellFormed_accepts : (Instr.sys 0x0E1).wellFormed = true ∧ (Instr.jp 0x0E0).wellFormed = true := by decide

/-! Decode vectors (section 2), by family. -/

theorem test_decode_family0 :
    decodeWord 0x0000 = .instr (.sys 0x000) ∧ decodeWord 0x00E0 = .instr .cls ∧ decodeWord 0x00EE = .instr .ret ∧
    decodeWord 0x00E1 = .instr (.sys 0x0E1) ∧ decodeWord 0x00FE = .instr (.sys 0x0FE) ∧
    decodeWord 0x0FFF = .instr (.sys 0xFFF) := by decide

theorem test_decode_jumps :
    decodeWord 0x1ABC = .instr (.jp 0xABC) ∧ decodeWord 0x2FFF = .instr (.call 0xFFF) ∧
    decodeWord 0xB123 = .instr (.jpV0 0x123) := by decide

theorem test_decode_skips :
    decodeWord 0x3A00 = .instr (.seImm 0xA 0x00) ∧ decodeWord 0x4FFF = .instr (.sneImm 0xF 0xFF) ∧
    decodeWord 0x5120 = .instr (.seReg 1 2) ∧ decodeWord 0x5121 = .reserved .family5 ∧
    decodeWord 0x9AB0 = .instr (.sneReg 0xA 0xB) ∧ decodeWord 0x9AB1 = .reserved .family9 := by decide

theorem test_decode_immediates :
    decodeWord 0x6A3C = .instr (.ldImm 0xA 0x3C) ∧ decodeWord 0x7F01 = .instr (.addImm 0xF 0x01) ∧
    decodeWord 0xC1FF = .instr (.rnd 1 0xFF) ∧ decodeWord 0xA123 = .instr (.ldI 0x123) := by decide

theorem test_decode_family8 :
    decodeWord 0x8AB0 = .instr (.ldReg 0xA 0xB) ∧ decodeWord 0x8AB1 = .instr (.orReg 0xA 0xB) ∧
    decodeWord 0x8AB2 = .instr (.andReg 0xA 0xB) ∧ decodeWord 0x8AB3 = .instr (.xorReg 0xA 0xB) ∧
    decodeWord 0x8AB4 = .instr (.addReg 0xA 0xB) ∧ decodeWord 0x8AB5 = .instr (.subReg 0xA 0xB) ∧
    decodeWord 0x8AB6 = .instr (.shrReg 0xA 0xB) ∧ decodeWord 0x8AB7 = .instr (.subnReg 0xA 0xB) ∧
    decodeWord 0x8ABE = .instr (.shlReg 0xA 0xB) ∧ decodeWord 0x8AB8 = .reserved .family8 ∧
    decodeWord 0x8ABD = .reserved .family8 ∧ decodeWord 0x8ABF = .reserved .family8 := by decide

theorem test_decode_familyD :
    decodeWord 0xD12F = .instr (.drw 1 2 0xF) ∧ decodeWord 0xD120 = .instr (.drw 1 2 0) := by decide

theorem test_decode_familyE :
    decodeWord 0xE19E = .instr (.skp 1) ∧ decodeWord 0xE1A1 = .instr (.sknp 1) ∧ decodeWord 0xE19D = .reserved .familyE ∧
    decodeWord 0xE0A2 = .reserved .familyE := by decide

theorem test_decode_familyF :
    decodeWord 0xF007 = .instr (.ldVxDt 0) ∧ decodeWord 0xF00A = .instr (.ldVxK 0) ∧ decodeWord 0xF015 = .instr (.ldDtVx 0) ∧
    decodeWord 0xF018 = .instr (.ldStVx 0) ∧ decodeWord 0xF01E = .instr (.addI 0) ∧ decodeWord 0xF029 = .instr (.ldF 0) ∧
    decodeWord 0xF033 = .instr (.ldB 0) ∧ decodeWord 0xF055 = .instr (.ldMemVx 0) ∧ decodeWord 0xF065 = .instr (.ldVxMem 0) := by
  decide

theorem test_decode_familyF_reserved :
    decodeWord 0xF000 = .reserved .familyF ∧ decodeWord 0xF075 = .reserved .familyF ∧ decodeWord 0xF085 = .reserved .familyF ∧
    decodeWord 0xF030 = .reserved .familyF ∧ decodeWord 0xFFFF = .reserved .familyF := by decide

/-- Bytes in address order, the more significant first; what follows is not looked at; one byte is no instruction. -/
theorem test_decode_bytes :
    decodeBytes [0x12, 0x34, 0x56] = .instr (.jp 0x234) ∧ decodeBytes [0x12] = .reserved .truncated ∧
    encodeBytes (.drw 1 2 0xF) = [0xD1, 0x2F] := by decide

theorem test_decode_table_word :
    decodeTableWord 16 0xF165 = some (.ldVxMem 1) ∧ decodeTableWord 16 0x00EE = some .ret ∧
    decodeTableWord 16 0xF0FF = none := by decide

/-! Single steps: control flow. -/

-- T2
theorem test_sys : nextHas (fun t => t.pc == 0x202 && t.sp == 0) (run s0 0x00FF) = true := by decide
-- T4
theorem test_ret : nextHas (fun t => t.pc == 0x206 && t.sp == 0) (run ((s0.setPc 0x212).setStack [0x206]) 0x00EE) = true := by
  decide
-- T5
theorem test_ret_nested :
    nextHas (fun t => t.pc == 0x300 && t.sp == 1 && t.stackEntry 0 == some 0x206)
      (run ((s0.setPc 0x400).setStack [0x300, 0x206]) 0x00EE) = true := by decide
-- T9, T10
theorem test_jp :
    nextHas (fun t => t.pc == 0xFFF) (run s0 0x1FFF) = true ∧ nextHas (fun t => t.pc == 0x203) (run s0 0x1203) = true := by decide
-- T11
theorem test_call :
    nextHas (fun t => t.pc == 0x210 && t.sp == 1 && t.stackEntry 0 == some 0x206) (run (s0.setPc 0x204) 0x2210) = true := by decide
-- T12, T13
theorem test_call_depth :
    nextHas (fun t => t.sp == 16 && t.stackEntry 15 == some 0x202) (run (calls s0 15) 0x2300) = true ∧
    faultsWith .stackOverflow (run (calls s0 16) 0x2300) = true := by decide
-- T16, T15
theorem test_seImm :
    nextHas (fun t => t.pc == 0x204) (run (s0.setV 0xF 1) 0x3F01) = true ∧
    nextHas (fun t => t.pc == 0x20A) (run ((s0.setPc 0x208).setV 1 3) 0x3100) = true := by decide
-- T17
theorem test_seImm_beyond_memory : nextHas (fun t => t.pc == 0x1000) (run (s0.setPc 0xFFC) 0x3100) = true := by decide
-- T18, T19
theorem test_sneImm :
    nextHas (fun t => t.pc == 0x304) (run ((s0.setPc 0x300).setV 2 0x10) 0x4211) = true ∧
    nextHas (fun t => t.pc == 0x302) (run ((s0.setPc 0x300).setV 2 0x10) 0x4210) = true := by decide
-- T20, T21
theorem test_seReg :
    nextHas (fun t => t.pc == 0x224) (run (regs (s0.setPc 0x220) [(3, 7), (4, 7)]) 0x5340) = true ∧
    nextHas (fun t => t.pc == 0x222) (run (regs (s0.setPc 0x220) [(3, 7), (4, 8)]) 0x5340) = true := by decide
-- T23, T25
theorem test_sneReg :
    nextHas (fun t => t.pc == 0x224) (run (regs (s0.setPc 0x220) [(3, 7), (4, 8)]) 0x9340) = true ∧
    nextHas (fun t => t.pc == 0x202) (run (s0.setV 3 7) 0x9330) = true := by decide
-- T27, T28
theorem test_jpV0 :
    nextHas (fun t => t.pc == 0x10FE) (run (s0.setV 0 0xFF) 0xBFFF) = true ∧
    nextHas (fun t => t.pc == 0x340) (run (s0.setV 3 0x40) 0xB340) = true := by decide

/-! Fetch. -/

-- T30, T31
theorem test_fetch_odd_and_last :
    nextHas (fun t => t.pc == 0x203 && t.getV 0xB == 0x77) (step (poke (s0.setPc 0x201) 0x201 [0x6B, 0x77])) = true ∧
    nextHas (fun t => t.pc == 0x1000 && t.getV 0xA == 0x3C) (run (s0.setPc 0xFFE) 0x6A3C) = true := by decide
-- T32, T34
theorem test_fetch_beyond :
    faultsWith (.addressOutOfRange 0xFFF) (step (s0.setPc 0xFFF)) = true ∧
    faultsWith (.addressOutOfRange 0x10FE) (step (s0.setPc 0x10FE)) = true := by decide
-- T35
theorem test_fetch_font :
    nextHas (fun t => t.pc == 0x002) (step (s0.setPc 0)) = true ∧ unhandledOpcode (s0.setPc 0) = some 0xF090 := by decide

/-! Load and ALU. -/

-- T37
theorem test_ldImm : nextHas (fun t => t.getV 0xF == 1) (run s0 0x6F01) = true := by decide
-- T41, T42
theorem test_addImm :
    nextHas (fun t => t.getV 1 == 0 && t.getVF == 7) (run (regs s0 [(1, 1), (0xF, 7)]) 0x71FF) = true ∧
    nextHas (fun t => t.getVF == 1) (run (s0.setV 0xF 0xFF) 0x7F02) = true := by decide
-- T44
theorem test_ldReg : nextHas (fun t => t.getV 2 == 1 && t.getVF == 1) (run (regs s0 [(0xF, 1), (2, 9)]) 0x82F0) = true := by decide
-- T45
theorem test_orReg :
    nextHas (fun t => t.getV 1 == 0xFF && t.getVF == 1) (run (regs s0 [(1, 0xF0), (2, 0x0F), (0xF, 1)]) 0x8121) = true := by decide
-- T46
theorem test_andReg :
    nextHas (fun t => t.getV 1 == 0x30 && t.getVF == 1) (run (regs s0 [(1, 0xF3), (2, 0x3C), (0xF, 1)]) 0x8122) = true := by decide
-- T47
theorem test_xorReg :
    nextHas (fun t => t.getV 1 == 0xF0 && t.getVF == 1) (run (regs s0 [(1, 0xFF), (2, 0x0F), (0xF, 1)]) 0x8123) = true := by decide
-- T51, T52
theorem test_addReg :
    nextHas (fun t => t.getV 0 == 0xFE && t.getVF == 1) (run (regs s0 [(0, 0xFF), (1, 0xFF)]) 0x8014) = true ∧
    nextHas (fun t => t.getV 0 == 3 && t.getVF == 0) (run (regs s0 [(0, 1), (1, 2), (0xF, 1)]) 0x8014) = true := by decide
-- T55, T56
theorem test_addReg_flag_operand :
    nextHas (fun t => t.getVF == 0) (run (regs s0 [(0xF, 1), (1, 2)]) 0x8F14) = true ∧
    nextHas (fun t => t.getV 0 == 8 && t.getVF == 0) (run (regs s0 [(0, 5), (0xF, 3)]) 0x80F4) = true := by decide
-- T58, T59
theorem test_subReg :
    nextHas (fun t => t.getV 0 == 0xFE && t.getVF == 0) (run (regs s0 [(0, 3), (1, 5), (0xF, 1)]) 0x8015) = true ∧
    nextHas (fun t => t.getV 0 == 0 && t.getVF == 0) (run (regs s0 [(0, 5), (1, 5), (0xF, 1)]) 0x8015) = true := by decide
-- T57, T61
theorem test_subReg_greater :
    nextHas (fun t => t.getV 0 == 7 && t.getVF == 1) (run (regs s0 [(0, 0xA), (1, 3)]) 0x8015) = true ∧
    nextHas (fun t => t.getVF == 1) (run (regs s0 [(0xF, 0xA), (1, 3)]) 0x8F15) = true := by decide
-- T63, T69
theorem test_shrReg :
    nextHas (fun t => t.getV 3 == 2 && t.getVF == 1 && t.getV 4 == 0xAA) (run (regs s0 [(3, 5), (4, 0xAA)]) 0x8346) = true ∧
    nextHas (fun t => t.getVF == 0) (run (s0.setV 0xF 2) 0x8F06) = true := by decide
-- T71, T72
theorem test_subnReg :
    nextHas (fun t => t.getV 0 == 0xF9 && t.getVF == 0) (run (regs s0 [(0, 0xA), (1, 3), (0xF, 1)]) 0x8017) = true ∧
    nextHas (fun t => t.getV 0 == 0 && t.getVF == 0) (run (regs s0 [(0, 6), (1, 6), (0xF, 1)]) 0x8017) = true := by decide
-- T73, T77
theorem test_shlReg :
    nextHas (fun t => t.getV 3 == 2 && t.getVF == 1) (run (regs s0 [(3, 0x81), (4, 0x55)]) 0x834E) = true ∧
    nextHas (fun t => t.getVF == 1) (run (s0.setV 0xF 0x80) 0x8F0E) = true := by decide
-- T80: with kk = 0 the result is 0 whatever is drawn
theorem test_rnd_masks_all : exec (.rnd 1 0x00) (s0.setV 1 0x99) = .next (s0.setV 1 0).countDraw := by
  have h : (0x00 : Byte) &&& Config.rnd 0 = 0 := BitVec.zero_and
  have e : exec (.rnd 1 0x00) (s0.setV 1 0x99) = .next ((s0.setV 1 0x99).setV 1 (0x00 &&& Config.rnd 0)).countDraw := rfl
  rw [e, h]; rfl
-- T81: with kk = 0xFF the result is the byte drawn
theorem test_rnd_keeps_all : exec (.rnd 1 0xFF) s0 = .next (s0.setV 1 (Config.rnd 0)).countDraw := by
  have h : (0xFF : Byte) &&& Config.rnd 0 = Config.rnd 0 := BitVec.allOnes_and
  have e : exec (.rnd 1 0xFF) s0 = .next (s0.setV 1 (0xFF &&& Config.rnd 0)).countDraw := rfl
  rw [e, h]

/-! Index register and memory transfers. -/

-- T84
theorem test_ldI : nextHas (fun t => t.i == 0x0FFF && t.pc == 0x202) (run s0 0xAFFF) = true := by decide
-- T86, T87
theorem test_addI :
    nextHas (fun t => t.i == 0x1000 && t.getVF == 1) (run (regs (s0.setI 0x0FFF) [(2, 1), (0xF, 1)]) 0xF21E) = true ∧
    nextHas (fun t => t.i == 0) (run ((s0.setI 0xFFFF).setV 2 1) 0xF21E) = true := by decide
-- T91, T93
theorem test_ldF :
    nextHas (fun t => t.i == 0x004B) (run (s0.setV 0 0x0F) 0xF029) = true ∧
    nextHas (fun t => t.i == 0x04FB) (run (s0.setV 0 0xFF) 0xF029) = true := by decide
-- T94, S7
theorem test_ldB :
    nextHas (fun t => t.mem == [(0x200, 0xF0), (0x201, 0x33), (0x300, 1), (0x301, 5), (0x302, 7)])
      (run ((s0.setI 0x300).setV 0 0x9D) 0xF033) = true := by decide
-- T99, T100
theorem test_ldB_edge :
    nextHas (fun t => t.mem.read 0xFFD == 2 && t.mem.read 0xFFF == 5) (run ((s0.setI 0xFFD).setV 0 0xFF) 0xF033) = true ∧
    faultsWith (.addressOutOfRange 0x1000) (run ((s0.setI 0xFFE).setV 0 0xFF) 0xF033) = true := by decide
-- T102
theorem test_ldMemVx :
    nextHas (fun t => t.mem == [(0x200, 0xF1), (0x201, 0x55), (0x300, 0x12), (0x301, 0x0A)] && t.i == 0x300)
      (run (regs (s0.setI 0x300) [(0, 0x12), (1, 0x0A), (2, 0x33)]) 0xF155) = true := by decide
-- T104, T105
theorem test_ldMemVx_edge :
    nextHas (fun t => t.mem.read 0xFF0 == 1 && t.mem.read 0xFF7 == 8 && t.mem.read 0xFFF == 0xEE)
      (run (regs (s0.setI 0xFF0) [(0, 1), (7, 8), (0xF, 0xEE)]) 0xFF55) = true ∧
    faultsWith (.addressOutOfRange 0x1000) (run (regs (s0.setI 0xFF1) [(0, 1), (0xF, 0xEE)]) 0xFF55) = true := by decide
-- T106
theorem test_ldVxMem :
    nextHas (fun t => t.getV 0 == 1 && t.getV 1 == 5 && t.getV 2 == 7 && t.getV 3 == 0)
      (run (poke (s0.setI 0x300) 0x300 [1, 5, 7, 9]) 0xF265) = true := by decide
-- T108, T109
theorem test_ldVxMem_font_and_edge :
    nextHas (fun t => t.getV 0 == 0xF0 && t.getV 6 == 0x60 && t.getV 0xD == 0x80 && t.getVF == 0xF0) (run s0 0xFF65) = true ∧
    faultsWith (.addressOutOfRange 0x1000) (run ((s0.setI 0xFF8).setV 0 3) 0xF865) = true := by decide

/-! Display. -/

-- T110
theorem test_cls :
    nextHas (fun t => t.fb == Framebuffer.clear && t.getVF == 1)
      (run ((lit s0 [(0, 0), (63, 31), (10, 5)]).setV 0xF 1) 0x00E0) = true := by decide
-- T115
theorem test_drw_wraps :
    nextHas (fun t => t.fb == (lit s0 [(0, 0), (1, 0), (2, 0), (3, 0), (60, 0), (61, 0), (62, 0), (63, 0), (3, 31), (60, 31)]).fb &&
        t.getVF == 0)
      (run (regs (poke (s0.setI 0x300) 0x300 [0x81, 0xFF]) [(0, 0x3C), (1, 0x1F)]) 0xD012) = true := by decide
-- T116, T117
theorem test_drw_collision :
    nextHas (fun t => t.fb == (lit s0 [(1, 0)]).fb && t.getVF == 1) (run (lit (poke (s0.setI 0x300) 0x300 [0xC0]) [(0, 0)]) 0xD001) =
      true ∧
    nextHas (fun t => t.fb == (lit s0 [(0, 0), (1, 0)]).fb && t.getVF == 0)
      (run ((lit (poke (s0.setI 0x300) 0x300 [0x40]) [(0, 0)]).setV 0xF 1) 0xD001) = true := by decide
-- T119, T120, T113
theorem test_drw_range :
    nextHas (fun t => t.fb == (lit s0 [(7, 0)]).fb) (run (poke (s0.setI 0xFFF) 0xFFF [1]) 0xD001) = true ∧
    faultsWith (.addressOutOfRange 0x1000) (run (poke (s0.setI 0xFFF) 0xFFF [1]) 0xD002) = true ∧
    nextHas (fun t => t.getVF == 0) (run ((s0.setI 0x1000).setV 0xF 1) 0xD010) = true := by decide
-- T121
theorem test_drw_flag_coordinate :
    nextHas (fun t => t.fb == (lit s0 [(5, 2)]).fb && t.getVF == 0)
      (run (regs (poke (s0.setI 0x300) 0x300 [0x80]) [(0xF, 5), (1, 2)]) 0xDF11) = true := by decide

/-! Keypad and timers. -/

-- T126, T129
theorem test_skp :
    nextHas (fun t => t.pc == 0x202) (run (press (s0.setV 1 5) [4, 6]) 0xE19E) = true ∧
    nextHas (fun t => t.pc == 0x204) (run (press (s0.setV 1 0xF) [0xF]) 0xE19E) = true := by decide
-- T127, T128
theorem test_sknp :
    nextHas (fun t => t.pc == 0x204) (run (s0.setV 1 5) 0xE1A1) = true ∧
    nextHas (fun t => t.pc == 0x202) (run (press (s0.setV 1 5) [5]) 0xE1A1) = true := by decide
-- T130, T131
theorem test_key_index :
    faultsWith (.keyIndexOutOfRange 0x10) (run (s0.setV 1 0x10) 0xE19E) = true ∧
    faultsWith (.keyIndexOutOfRange 0xFF) (run (press (s0.setV 1 0xFF) [0xF]) 0xE1A1) = true := by decide
-- T132, T133
theorem test_ldVxK :
    nextHas (fun t => t.pc == 0x200 && t.mode == .waitingForKey && t.waitx == 1) (run s0 0xF10A) = true ∧
    nextHas (fun t => t.pc == 0x202 && t.getV 1 == 7 && t.mode == .running) (run (press s0 [7]) 0xF10A) = true := by decide
-- T137, T138
theorem test_waiting_step :
    nextHas (fun t => t == waiting 1) (step (waiting 1)) = true ∧
    nextHas (fun t => t.pc == 0x202 && t.getV 1 == 7 && t.mode == .running) (step (press (waiting 1) [7])) = true := by decide
-- T139
theorem test_waiting_step_no_fetch :
    nextHas (fun t => t.pc == 0x202 && t.getV 2 == 0xA && t.mode == .running)
      (step (poke (press (waiting 2) [0xA]) 0x200 [0xFF, 0xFF])) = true := by decide
-- T141
theorem test_ldVxDt : nextHas (fun t => t.getV 3 == 0x2A && t.dt == 0x2A) (run (s0.setDt 0x2A) 0xF307) = true := by decide
-- T143
theorem test_ldDtVx : nextHas (fun t => t.dt == 0x3C && t.st == 0) (run (s0.setV 1 0x3C) 0xF115) = true := by decide
-- T145
theorem test_ldStVx : nextHas (fun t => t.st == 5 && t.dt == 0) (run (s0.setV 2 5) 0xF218) = true := by decide

/-! Reserved words. -/

-- T146, T151
theorem test_reserved :
    nextHas (fun t => t.pc == 0x202) (run (regs s0 [(1, 1), (2, 1)]) 0x5121) = true ∧
    nextHas (fun t => t.pc == 0x202) (run (s0.setV 1 0xFF) 0xE100) = true ∧
    unhandledOpcode (s0.withFetchWord 16 0xE100) = some 0xE100 ∧ unhandledOpcode (s0.withFetchWord 16 0x0000) = none := by decide

/-! Host operations. -/

-- H16: a run is fault-free as long as no operation reports a fault
theorem test_faultFree :
    faultFree [.step, .tick] s0 = true ∧ faultFree [.tick, .step] (s0.withFetchWord 16 0x00EE) = false := by decide
-- H1, from a state with a ROM and a flag
theorem test_reset :
    perform (.reset defaultFont) (poke (s0.setV 0xF 1) 0x200 [0x12, 0x34]) = (s0, .ok) := by
  simp only [perform, hostReset_default]; rfl
-- 10_state.md R31: the default glyph of digit 7
theorem test_reset_default_font :
    State.reset.mem.readBytes 0x023 5 = [0xF0, 0x10, 0x20, 0x40, 0x40] := by decide
-- R195: another font is installed in the same place, and nowhere else
theorem test_reset_other_font :
    let t := (perform (.reset (Vector.replicate 80 0x11)) s0).1
    t.mem.read 0x000 = 0x11 ∧ t.mem.read 0x04F = 0x11 ∧ t.mem.read 0x050 = 0x00 := by
  simp [perform, State.resetWith_read]
-- H2, H7
theorem test_loadRom :
    (performAll [.loadRom [0x12, 0x34, 0x56], .loadRom [0xFF]] s0).mem = [(0x200, 0xFF), (0x201, 0x34), (0x202, 0x56)] := by decide
-- H4: the boundary length and the first one above it
theorem test_loadRom_too_long :
    perform (.loadRom (List.replicate 3585 0xAA)) s0 = (s0, .fault (.memoryOverrun 3585)) := by
  have h : hostLoadRom (List.replicate 3585 0xAA) s0 = .error (.memoryOverrun 3585) := by
    unfold hostLoadRom
    rw [List.length_replicate, if_pos (by decide)]
  simp only [perform, h]
-- H9, H10, H12
theorem test_tick :
    (hostTick (s0.setSt 3)).st = 2 ∧ (hostTick (s0.setSt 3)).dt = 0 ∧ soundActive (hostTick (s0.setSt 1)) = false ∧
    (hostTick ((waiting 1).setDt 9)).dt = 8 ∧ (hostTick ((waiting 1).setDt 9)).mode = .waitingForKey := by decide
-- H14
theorem test_keySet_unseen :
    performAll [.keySet 5 true, .keySet 5 false, .step] (waiting 1) = waiting 1 := by decide
-- H15
theorem test_readFramebuffer :
    let grid := (lit s0 [(63, 31), (0, 31)]).fb.grid
    grid[2047]? = some true ∧ grid[1984]? = some true ∧ grid[0]? = some false := by
  refine ⟨?_, ?_, ?_⟩ <;> rw [Framebuffer.grid, List.getElem?_map, List.getElem?_range (by decide)] <;> decide
-- H16
theorem test_fault_keeps_state :
    perform .step (s0.withFetchWord 16 0x00EE) = (s0.withFetchWord 16 0x00EE, .fault .stackUnderflow) := by decide
-- H17
theorem test_reset_recovers :
    (performAll [.reset defaultFont, .loadRom [0x12, 0x00], .step] (s0.withFetchWord 16 0x00EE)).pc = 0x200 := by
  simp only [performAll, perform, hostReset_default]; rfl

/-! Witnesses: for every statement with hypotheses, states and operands that meet them together, at the boundary values of each
clause. -/

theorem witness_DecodeOfEncode : (Instr.sys 0xFFF).wellFormed = true ∧ (Instr.drw 0xF 0xF 0xF).wellFormed = true := by decide

theorem witness_EncodeOfDecode : decodeWord 0xFF65 = .instr (.ldVxMem 0xF) ∧ decodeWord 0x00EF = .instr (.sys 0x0EF) := by decide

/-- At the last legal fetch address too. -/
theorem witness_StepRunsDecodedInstruction :
    let s := (s0.setPc 0xFFE).withFetchWord 16 0x6A3C
    s.mode = .running ∧ s.pc.toNat ≤ 0xFFE ∧ (Instr.ldImm 0xA 0x3C).wellFormed = true ∧
    decodeBytes [s.mem.read s.pc.toNat, s.mem.read (s.pc.toNat + 1)] = .instr (.ldImm 0xA 0x3C) := by decide

theorem witness_StepOnReservedWordAdvances :
    let s := (s0.setPc 0xFFE).withFetchWord 16 0xFFFF
    s.mode = .running ∧ s.pc.toNat ≤ 0xFFE ∧
    decodeBytes [s.mem.read s.pc.toNat, s.mem.read (s.pc.toNat + 1)] = .reserved .familyF := by decide

/-- `0xFFF` is the first address above, `0xFFFF` the last. -/
theorem witness_FetchBeyondMemoryFaults :
    (s0.setPc 0xFFF).mode = .running ∧ 0xFFE < (s0.setPc 0xFFF).pc.toNat ∧ 0xFFE < (s0.setPc 0xFFFF).pc.toNat := by decide

theorem witness_WaitingStepEndsOnKey :
    (waiting 1).mode = .waitingForKey ∧ (∀ k ∈ allRegs, (waiting 1).getKey k = false) ∧
    (press (waiting 1) [0xF]).mode = .waitingForKey ∧ (press (waiting 1) [0xF]).getKey 0xF = true ∧
    nextHas (fun t => t.getV 1 == 0xF) (step (press (waiting 1) [0xF])) = true := by decide

/-- Each of the outcomes is one some state has. -/
theorem witness_StepOutcomesAreThree :
    (hostStep s0).2 = .ok ∧ (hostStep (s0.withFetchWord 16 0xFFFF)).2 = .unhandledOpcode 0xFFFF ∧
    (hostStep (s0.withFetchWord 16 0x00EE)).2 = .fault .stackUnderflow := by decide

theorem witness_InstructionsFaultExactlyOnCause :
    faultOf (.ldB 0) (s0.setI 0xFFE) = some (.addressOutOfRange 0x1000) ∧ faultOf (.ldB 0) (s0.setI 0xFFD) = none ∧
    faultOf (.drw 0 0 0) (s0.setI 0x1000) = none ∧ faultOf (.call 0) (calls s0 15) = none := by decide

theorem witness_FaultRepeats :
    faultsWith .stackUnderflow (step (s0.withFetchWord 16 0x00EE)) = true ∧
    faultsWith (.keyIndexOutOfRange 0x10) (step ((s0.setV 1 0x10).withFetchWord 16 0xE19E)) = true := by decide

theorem witness_SelfJumpIsStable :
    let s := s0.withFetchWord 16 0x1200
    s.mode = .running ∧ fetchedInstr s = some (.jp 0x200) ∧ s.pc.toNat = (0x200 : Addr12).toNat := by decide

/-- A running state with a full stack that returns, and a waiting state with a key pressed. -/
theorem witness_StepKeepsInvariants :
    let s := (calls s0 16).withFetchWord 16 0x00EE
    CoreInv s ∧ WaitInv s ∧ nextHas (fun t => t.sp == 15) (step s) = true := by
  refine ⟨⟨by decide, by decide, fun e he => ?_, by decide, by decide⟩, by decide, by decide⟩
  rw [List.eq_of_mem_replicate (he : e ∈ List.replicate 16 0x202)]; decide

theorem waiting_coreInv (x : Reg) (h : (waiting x).mem.wf) : CoreInv (waiting x) :=
  ⟨h, Nat.zero_le _, fun _ he => absurd he List.not_mem_nil, by show (0x200 : Word).toNat ≤ 0x10FE; decide,
    fun _ => by show (0x200 : Word).toNat ≤ 0xFFE; decide⟩

theorem witness_StepKeepsInvariants_waiting :
    let u := press (waiting 0xF) [0]
    CoreInv u ∧ WaitInv u ∧ u.mode = .waitingForKey ∧ nextHas (fun t => t.mode == .running) (step u) = true :=
  ⟨waiting_coreInv 0xF (by decide), by decide, by decide, by decide⟩

theorem witness_HostOperationsKeepInvariants :
    CoreInv (waiting 1) ∧ WaitInv (waiting 1) ∧ ∀ rom, HostOp.tick ≠ .loadRom rom :=
  ⟨waiting_coreInv 1 (by decide), by decide, fun _ h => by cases h⟩

theorem witness_WaitingStepIsRefetch : (waiting 0xF).mode = .waitingForKey ∧ WaitInv (waiting 0xF) := by decide

theorem witness_AccessMatrixHolds :
    exec (.ldMemVx 0xF) (s0.setI 0xFF0) = .next (nextOf s0 (exec (.ldMemVx 0xF) (s0.setI 0xFF0))) := rfl

/-- Each event really changes its part. -/
theorem witness_OnlyTheseEventsChange :
    nextHas (fun t => t.getV 1 != 0) (run s0 0x6101) = true ∧
    nextHas (fun t => t.getV 1 != 0) (step (press (waiting 1) [7])) = true ∧
    nextHas (fun t => t.i != 0) (run s0 0xA001) = true ∧
    nextHas (fun t => t.i != 0) (run (s0.setV 1 1) 0xF11E) = true ∧
    nextHas (fun t => t.i != 0) (run (s0.setV 1 1) 0xF129) = true ∧
    nextHas (fun t => t.dt != 0) (run (s0.setV 1 1) 0xF115) = true ∧
    nextHas (fun t => t.st != 0) (run (s0.setV 1 1) 0xF118) = true ∧
    nextHas (fun t => t.fb.pixel 0 0) (run s0 0xD001) = true ∧
    nextHas (fun t => t.mem.read 0 != s0.mem.read 0) (run s0 0xF033) = true ∧
    nextHas (fun t => t.stack != []) (run s0 0x2300) = true ∧
    nextHas (fun t => t.mode == .waitingForKey) (run s0 0xF00A) = true ∧
    nextHas (fun t => t.mode == .running) (step (press (waiting 1) [0])) = true := by decide

theorem witness_SysIsIgnored :
    (s0.withFetchWord 16 0x00E1).mode = .running ∧ fetchedInstr (s0.withFetchWord 16 0x00E1) = some (.sys 0x0E1) := by decide

theorem witness_ReturnPopsIntoPc :
    s0.sp = 0 ∧ 0 < (calls s0 1).sp ∧ 0 < (calls s0 16).sp ∧ (s0.withFetchWord 16 0x00EE).mode = .running ∧
    fetchedInstr (s0.withFetchWord 16 0x00EE) = some .ret ∧ (s0.withFetchWord 16 0x00EE).sp = 0 := by decide

theorem witness_CallPushesReturnAddress :
    Config.stackDepth ≤ (calls s0 16).sp ∧ (calls s0 15).sp < Config.stackDepth ∧
    fetchedInstr ((calls s0 16).withFetchWord 16 0x2300) = some (.call 0x300) ∧
    ((calls s0 16).withFetchWord 16 0x2300).mode = .running := by decide

theorem witness_CallThenReturnResumes :
    let t := nextOf s0 (exec (.call 0x300) s0)
    exec (.call 0x300) s0 = .next t ∧ (t.setV 1 7).stack = t.stack := ⟨rfl, rfl⟩

theorem witness_SkipsOnRegister : (1 : Nibble) ≠ 0 ∧ (0xF : Nibble) ≠ 0 := by decide

/-- For `AddSetsCarry`, `SubtractionsSetStrictGreater`, `ShiftRightDropsLowBit` and `ShiftLeftDropsHighBit`. -/
theorem witness_flag_register_is_not_x : (0xE : Reg) ≠ 0xF ∧ (0 : Reg) ≠ 0xF := by decide

theorem witness_StoreDecimalDigits :
    0xFFF < (s0.setI 0xFFE).i.toNat + 2 ∧ (s0.setI 0xFFD).i.toNat + 2 ≤ 0xFFF := by decide

/-- For `StoreRegisterRange` and `LoadRegisterRange`. -/
theorem witness_register_range :
    0xFFF < (s0.setI 0xFF1).i.toNat + (0xF : Reg).toNat ∧ (s0.setI 0xFF0).i.toNat + (0xF : Reg).toNat ≤ 0xFFF ∧
    0xFFF < (s0.setI 0x1000).i.toNat + (0 : Reg).toNat ∧ (s0.setI 0xFFF).i.toNat + (0 : Reg).toNat ≤ 0xFFF := by decide

theorem witness_StoreThenLoadRestores :
    let s := regs (s0.setI 0xFF0) [(0, 1), (0xF, 0xEE)]
    let t := nextOf s0 (exec (.ldMemVx 0xF) s)
    exec (.ldMemVx 0xF) s = .next t ∧ (t.setV 0 9).mem = t.mem ∧ (t.setV 0 9).i = s.i := ⟨rfl, rfl, rfl⟩

theorem witness_DecimalDigitsMakeUpNumber :
    let s := (s0.setI 0xFFD).setV 0 0xFF
    exec (.ldB 0) s = .next (nextOf s0 (exec (.ldB 0) s)) := rfl

theorem witness_FetchSeesStoredWord :
    let s := regs (s0.setI 0xFFE) [(0, 0x12), (1, 0x0C)]
    let t := nextOf s0 (exec (.ldMemVx 1) s)
    exec (.ldMemVx 1) s = .next t ∧ 1 ≤ (1 : Reg).toNat ∧ (t.setPc 0xFFE).mem = t.mem ∧ (t.setPc 0xFFE).pc = s.i :=
  ⟨rfl, by decide, rfl, rfl⟩

/-- Both sides of the range, at `n = 0`, 1 and 15. -/
theorem witness_DrawXorsSprite :
    (0 : Nibble).toNat = 0 ∧ (s0.setI 0xFF1).i.toNat + (0xF : Nibble).toNat - 1 ≤ 0xFFF ∧
    (0 < (0xF : Nibble).toNat ∧ 0xFFF < (s0.setI 0xFF2).i.toNat + (0xF : Nibble).toNat - 1) ∧
    (0 < (1 : Nibble).toNat ∧ 0xFFF < (s0.setI 0x1000).i.toNat + (1 : Nibble).toNat - 1) := by decide

/-- A sprite drawn on a blank framebuffer; the second draw starts from the first one's end. -/
theorem witness_DrawTwiceRestores :
    let s := regs (poke (s0.setI 0x300) 0x300 [0xC0]) [(0, 0x3F), (1, 0x1F)]
    let t := nextOf s0 (exec (.drw 0 1 1) s)
    exec (.drw 0 1 1) s = .next t ∧ t.mem = s.mem ∧ t.i = s.i ∧ t.getV 0 = s.getV 0 ∧ t.getV 1 = s.getV 1 ∧
    s.fb = Framebuffer.clear ∧ s.mem.read (s.i.toNat + 0) ≠ 0 := by
  refine ⟨rfl, by decide, by decide, by decide, by decide, by decide, by decide⟩

theorem witness_SkipsOnKey :
    0xF < ((s0.setV 1 0x10).getV 1).toNat ∧ ((s0.setV 1 0xF).getV 1).toNat = (0xF : Reg).toNat := by decide

theorem witness_KeyWaitRecordsOrWaits : (press s0 [3, 9]).getKey 9 = true ∧ ∀ k ∈ allRegs, s0.getKey k = false := by decide

theorem witness_KeySetChangesOneKey :
    s0.getKey 0xF = false ∧ (press s0 [0]).getKey 0 = true ∧ (0xE : Reg) ≠ 0xF := by decide

theorem witness_LoadRomWritesVerbatim :
    3584 < (List.replicate 3585 (0xAA : Byte)).length ∧ (List.replicate 3584 (0xAA : Byte)).length ≤ 3584 ∧
    0 < (List.replicate 3584 (0xAA : Byte)).length := by
  rw [List.length_replicate, List.length_replicate]; decide

theorem witness_HostResetRestoresReset : ([0x12, 0x34] : List Byte).length ≤ 3584 := by decide

end Sys2Proof.Tests
end

section
/-! PROOFS of the family of 10_state.md: the inversion of each operation that may fault or wait, frames field by field, the
access matrix, the events of a step, the invariants and reset. -/

namespace Sys2Proof.Machine

/-! What the operations that may fault, or may wait, did when they answered a next state. -/

section Inversion
variable {s t : State}

theorem execRet_next (h : execRet s = .next t) :
    ∃ v rest, s.stack = v :: rest ∧ t = (s.setStack rest).setPc v := by
  cases hs : s.stack with
  | nil => simp [execRet, s.pop_nil hs, raise] at h
  | cons v rest =>
    simp only [execRet, s.pop_cons hs, Host.Outcome.next.injEq] at h
    exact ⟨v, rest, rfl, h.symm⟩

theorem execCall_next {nnn : Addr12} (h : execCall nnn s = .next t) :
    s.sp < 16 ∧ t = (s.setStack (s.pc :: s.stack)).setPc (target nnn) := by
  by_cases hsp : 16 ≤ s.sp
  · simp [execCall, State.push_eq, hsp, raise] at h
  · simp only [execCall, State.push_eq, hsp, if_false, Host.Outcome.next.injEq] at h
    exact ⟨not_le.mp hsp, h.symm⟩

/-- A draw that answers a next state has written the framebuffer and the flag. -/
theorem execDrw_next {x y : Reg} {n : Nibble} (h : execDrw x y n s = .next t) :
    ∃ fb c, t = (s.setFb fb).setVF c := by
  unfold execDrw at h
  cases hm : memReadSpan s.mem s.base n.toNat with
  | error f => simp [hm, raise] at h
  | ok sprite =>
    simp only [hm, Host.Outcome.next.injEq] at h
    exact ⟨_, _, h.symm⟩

theorem storeAtI_next {bs : List Byte} (h : storeAtI bs s = .next t) :
    (bs.length = 0 ∨ s.i.toNat + bs.length ≤ 4096) ∧ t = s.setMem (s.mem.writeBytes s.i.toNat bs) := by
  rw [storeAtI_eq] at h
  split at h
  · next hb => exact ⟨hb, (Host.Outcome.next.inj h).symm⟩
  · cases h

theorem execLdVxMem_next {x : Reg} (h : execLdVxMem x s = .next t) :
    t = s.loadRegs 0 (s.mem.readBytes s.i.toNat (x.toNat + 1)) := by
  rw [execLdVxMem, memReadSpan_eq] at h
  by_cases hb : rangeCount x = 0 ∨ s.base + rangeCount x ≤ 4096
  · rw [if_pos hb] at h
    exact (Host.Outcome.next.inj h).symm
  · rw [if_neg hb] at h
    cases h

/-- A key skip that answers a next state is a skip on some condition. -/
theorem skipOnKey_next {x : Reg} {pressed : Bool} (h : skipOnKey x pressed s = .next t) : ∃ c, t = s.skipIf c := by
  unfold skipOnKey at h
  simp only at h
  split at h
  · cases h
  · exact ⟨_, (Host.Outcome.next.inj h).symm⟩

theorem execLdVxK_next {x : Reg} (h : execLdVxK x s = .next t) :
    (∃ k, s.keySelect = some k ∧ t = s.recordKey x k) ∨
    (s.keySelect = none ∧ t = (s.retreat.setMode .waitingForKey).setWaitx x) := by
  unfold execLdVxK at h
  cases hk : s.keySelect with
  | some k => exact .inl ⟨k, rfl, by simpa [hk] using h.symm⟩
  | none => exact .inr ⟨rfl, by simpa [hk] using h.symm⟩

theorem waitingStep_next (h : waitingStep s = .next t) :
    (∃ k, s.keySelect = some k ∧ t = (s.recordKey s.waitx k).advance.setMode .running) ∨
    (s.keySelect = none ∧ t = s) := by
  unfold waitingStep at h
  cases hk : s.keySelect with
  | some k => exact .inl ⟨k, rfl, by simpa [hk] using h.symm⟩
  | none => exact .inr ⟨rfl, by simpa [hk] using h.symm⟩

end Inversion

/-! The fetched instruction. -/

theorem fetch_ok_pc {s : State} {w : Word} (h : fetch s = .ok w) : s.pc.toNat ≤ 0xFFE := by
  by_contra hpc
  rw [fetch_eq, if_neg hpc] at h
  cases h

theorem fetchedInstr_of_decode {s : State} {w : Word} {i : Instr} (hf : fetch s = .ok w) (hd : decodeWord w = .instr i) :
    fetchedInstr s = some i := by
  simp [fetchedInstr, hf, hd]

/-- Which instruction is fetched depends on memory and `pc` alone. -/
theorem fetchedInstr_congr {s t : State} (hm : t.mem = s.mem) (hpc : t.pc = s.pc) : fetchedInstr t = fetchedInstr s := by
  simp [fetchedInstr, fetch, hm, hpc]

/-- What a step from RUNNING that answers a next state did, in terms of the instruction at `pc`. -/
theorem step_running_next {s t : State} (hm : s.mode = .running) (h : step s = .next t) :
    s.pc.toNat ≤ 0xFFE ∧ (t = s.advance ∨ ∃ i, fetchedInstr s = some i ∧ exec i s.advance = .next t) := by
  rcases step_next_cases s h with ⟨hw, _⟩ | ⟨w, r, _, hf, _, ht⟩ | ⟨w, i, _, hf, hd, hx⟩
  · rw [hm] at hw; cases hw
  · exact ⟨fetch_ok_pc hf, .inl ht⟩
  · exact ⟨fetch_ok_pc hf, .inr ⟨i, fetchedInstr_of_decode hf hd, hx⟩⟩

theorem step_waiting_next {s t : State} (hm : s.mode = .waitingForKey) (h : step s = .next t) :
    (∃ k, s.keySelect = some k ∧ t = (s.recordKey s.waitx k).advance.setMode .running) ∨
    (s.keySelect = none ∧ t = s) :=
  waitingStep_next (by rwa [step_waiting s hm] at h)

end Sys2Proof.Machine

namespace Sys2Proof.Safety

open Sys2Proof.Machine

/-! Frames field by field: `Part.same` looks at memory, display, registers and keys through reads; here the field itself is
the same, so that the canonical form of memory is kept too. -/

/-- Two states hold the same value in the field of a part. -/
def Part.sameField (s t : State) : Part → Prop
  | .regs => t.v = s.v
  | .index => t.i = s.i
  | .pc => t.pc = s.pc
  | .stack => t.stack = s.stack
  | .delay => t.dt = s.dt
  | .sound => t.st = s.st
  | .keys => t.keys = s.keys
  | .display => t.fb = s.fb
  | .memory => t.mem = s.mem
  | .mode => t.mode = s.mode
  | .waitx => t.waitx = s.waitx

theorem Part.same_of_sameField {s t : State} {p : Part} (h : p.sameField s t) : p.same s t := by
  cases p with
  | regs => exact fun r => by simp only [State.getV, show t.v = s.v from h]
  | keys => exact fun k => by simp only [State.getKey, show t.keys = s.keys from h]
  | display => exact fun y x => by rw [show t.fb = s.fb from h]
  | memory => exact fun a => by rw [show t.mem = s.mem from h]
  | index | pc | stack | delay | sound | mode | waitx => exact h

/-- Every field but those of the listed parts is unchanged. -/
def KeepsFieldsBut (ps : List Part) (s t : State) : Prop := ∀ p, p ∉ ps → p.sameField s t

section Frames
variable {s t u : State} {ps qs : List Part}

theorem KeepsFieldsBut.keepsBut (h : KeepsFieldsBut ps s t) : KeepsBut ps s t :=
  fun p hp => Part.same_of_sameField (h p hp)

@[simp] theorem KeepsFieldsBut.refl (s : State) : KeepsFieldsBut ps s s := fun p _ => by cases p <;> rfl

theorem KeepsFieldsBut.trans (h : KeepsFieldsBut ps s t) (h' : KeepsFieldsBut ps t u) : KeepsFieldsBut ps s u := by
  intro p hp
  have h1 := h p hp
  have h2 := h' p hp
  cases p <;> exact Eq.trans h2 h1

theorem KeepsFieldsBut.mono (h : KeepsFieldsBut ps s t) (hs : ps ⊆ qs) : KeepsFieldsBut qs s t :=
  fun p hp => h p fun hq => hp (hs hq)

theorem KeepsFieldsBut.keepsRegsBut (h : KeepsFieldsBut ps s t) (hr : .regs ∉ ps) (rs : List Reg) :
    KeepsRegsBut rs s t := fun r _ => h.keepsBut .regs hr r

theorem KeepsFieldsBut.keepsMemoryBut (h : KeepsFieldsBut ps s t) (hm : .memory ∉ ps) (base n : Nat) :
    KeepsMemoryBut base n s t := fun a _ => h.keepsBut .memory hm a


theorem keepsFieldsBut_congr (h : KeepsFieldsBut ps t u) : KeepsFieldsBut ps s u ↔ KeepsFieldsBut ps s t := by
  refine ⟨fun hu p hp => ?_, fun ht => ht.trans h⟩
  have htu := h p hp
  have hsu := hu p hp
  cases p <;> exact Eq.trans (Eq.symm htu) hsu

end Frames

/-! What each update writes: an update of a listed part, and a draw of a free value, does not count. -/

section Updates
variable {s t : State} {ps : List Part}

@[simp] theorem keepsFieldsBut_setV {r : Reg} {b : Byte} (h : .regs ∈ ps) :
    KeepsFieldsBut ps s (t.setV r b) ↔ KeepsFieldsBut ps s t :=
  keepsFieldsBut_congr fun p hp => by cases p <;> simp_all [Part.sameField]

@[simp] theorem keepsFieldsBut_setVF {c : Bool} (h : .regs ∈ ps) :
    KeepsFieldsBut ps s (t.setVF c) ↔ KeepsFieldsBut ps s t := keepsFieldsBut_setV h

@[simp] theorem keepsFieldsBut_setI {w : Word} (h : .index ∈ ps) :
    KeepsFieldsBut ps s (t.setI w) ↔ KeepsFieldsBut ps s t :=
  keepsFieldsBut_congr fun p hp => by cases p <;> simp_all [Part.sameField]

@[simp] theorem keepsFieldsBut_setPc {w : Word} (h : .pc ∈ ps) :
    KeepsFieldsBut ps s (t.setPc w) ↔ KeepsFieldsBut ps s t :=
  keepsFieldsBut_congr fun p hp => by cases p <;> simp_all [Part.sameField]

@[simp] theorem keepsFieldsBut_setStack {l : List Word} (h : .stack ∈ ps) :
    KeepsFieldsBut ps s (t.setStack l) ↔ KeepsFieldsBut ps s t :=
  keepsFieldsBut_congr fun p hp => by cases p <;> simp_all [Part.sameField]

@[simp] theorem keepsFieldsBut_setDt {b : Byte} (h : .delay ∈ ps) :
    KeepsFieldsBut ps s (t.setDt b) ↔ KeepsFieldsBut ps s t :=
  keepsFieldsBut_congr fun p hp => by cases p <;> simp_all [Part.sameField]

@[simp] theorem keepsFieldsBut_setSt {b : Byte} (h : .sound ∈ ps) :
    KeepsFieldsBut ps s (t.setSt b) ↔ KeepsFieldsBut ps s t :=
  keepsFieldsBut_congr fun p hp => by cases p <;> simp_all [Part.sameField]

@[simp] theorem keepsFieldsBut_setKey {k : Reg} {b : Bool} (h : .keys ∈ ps) :
    KeepsFieldsBut ps s (t.setKey k b) ↔ KeepsFieldsBut ps s t :=
  keepsFieldsBut_congr fun p hp => by cases p <;> simp_all [Part.sameField]

@[simp] theorem keepsFieldsBut_setFb {fb : Framebuffer} (h : .display ∈ ps) :
    KeepsFieldsBut ps s (t.setFb fb) ↔ KeepsFieldsBut ps s t :=
  keepsFieldsBut_congr fun p hp => by cases p <;> simp_all [Part.sameField]

@[simp] theorem keepsFieldsBut_setMem {m : Memory} (h : .memory ∈ ps) :
    KeepsFieldsBut ps s (t.setMem m) ↔ KeepsFieldsBut ps s t :=
  keepsFieldsBut_congr fun p hp => by cases p <;> simp_all [Part.sameField]

@[simp] theorem keepsFieldsBut_setMode {m : Mode} (h : .mode ∈ ps) :
    KeepsFieldsBut ps s (t.setMode m) ↔ KeepsFieldsBut ps s t :=
  keepsFieldsBut_congr fun p hp => by cases p <;> simp_all [Part.sameField]

@[simp] theorem keepsFieldsBut_setWaitx {r : Reg} (h : .waitx ∈ ps) :
    KeepsFieldsBut ps s (t.setWaitx r) ↔ KeepsFieldsBut ps s t :=
  keepsFieldsBut_congr fun p hp => by cases p <;> simp_all [Part.sameField]

@[simp] theorem keepsFieldsBut_countDraw : KeepsFieldsBut ps s t.countDraw ↔ KeepsFieldsBut ps s t :=
  keepsFieldsBut_congr fun p _ => by cases p <;> rfl

@[simp] theorem keepsFieldsBut_setResultFlag {x : Reg} {b : Byte} {c : Bool} (h : .regs ∈ ps) :
    KeepsFieldsBut ps s (t.setResultFlag x b c) ↔ KeepsFieldsBut ps s t := by
  simp [State.setResultFlag, h]

@[simp] theorem keepsFieldsBut_recordKey {r k : Reg} (h : .regs ∈ ps) :
    KeepsFieldsBut ps s (t.recordKey r k) ↔ KeepsFieldsBut ps s t := by
  simp [State.recordKey, h]

@[simp] theorem keepsFieldsBut_loadRegs {k : Nat} {bs : List Byte} (h : .regs ∈ ps) :
    KeepsFieldsBut ps s (t.loadRegs k bs) ↔ KeepsFieldsBut ps s t := by
  induction bs generalizing t k with
  | nil => rfl
  | cons b bs ih => rw [State.loadRegs, ih, keepsFieldsBut_setV h]

@[simp] theorem keepsFieldsBut_advance (h : .pc ∈ ps) : KeepsFieldsBut ps s t.advance ↔ KeepsFieldsBut ps s t :=
  keepsFieldsBut_setPc h

@[simp] theorem keepsFieldsBut_retreat (h : .pc ∈ ps) : KeepsFieldsBut ps s t.retreat ↔ KeepsFieldsBut ps s t :=
  keepsFieldsBut_setPc h

@[simp] theorem keepsFieldsBut_skipIf {c : Bool} (h : .pc ∈ ps) :
    KeepsFieldsBut ps s (t.skipIf c) ↔ KeepsFieldsBut ps s t := by
  rw [State.skipIf_eq, keepsFieldsBut_setPc h]

/-! The general registers one by one. -/

variable {rs : List Reg}

@[simp] theorem keepsRegsBut_self (s : State) : KeepsRegsBut rs s s := fun _ _ => rfl

@[simp] theorem keepsRegsBut_setV {r : Reg} {b : Byte} (h : r ∈ rs) :
    KeepsRegsBut rs s (t.setV r b) ↔ KeepsRegsBut rs s t := by
  refine forall₂_congr fun q hq => ?_
  have hne : q ≠ r := ne_of_mem_of_not_mem h hq |>.symm
  rw [State.getV_setV, if_neg hne]

@[simp] theorem keepsRegsBut_setVF {c : Bool} (h : flagReg ∈ rs) :
    KeepsRegsBut rs s (t.setVF c) ↔ KeepsRegsBut rs s t := keepsRegsBut_setV h

@[simp] theorem keepsRegsBut_setFb {fb : Framebuffer} : KeepsRegsBut rs s (t.setFb fb) ↔ KeepsRegsBut rs s t := Iff.rfl

@[simp] theorem keepsRegsBut_setPc {w : Word} : KeepsRegsBut rs s (t.setPc w) ↔ KeepsRegsBut rs s t := Iff.rfl

@[simp] theorem keepsRegsBut_setMode {m : Mode} : KeepsRegsBut rs s (t.setMode m) ↔ KeepsRegsBut rs s t := Iff.rfl

@[simp] theorem keepsRegsBut_setWaitx {r : Reg} : KeepsRegsBut rs s (t.setWaitx r) ↔ KeepsRegsBut rs s t := Iff.rfl

@[simp] theorem keepsRegsBut_countDraw : KeepsRegsBut rs s t.countDraw ↔ KeepsRegsBut rs s t := Iff.rfl

@[simp] theorem keepsRegsBut_setResultFlag {x : Reg} {b : Byte} {c : Bool} (hx : x ∈ rs) (hf : flagReg ∈ rs) :
    KeepsRegsBut rs s (t.setResultFlag x b c) ↔ KeepsRegsBut rs s t := by
  simp [State.setResultFlag, hx, hf]

@[simp] theorem keepsRegsBut_recordKey {r k : Reg} (h : r ∈ rs) :
    KeepsRegsBut rs s (t.recordKey r k) ↔ KeepsRegsBut rs s t := by
  simp [State.recordKey, h]

@[simp] theorem keepsRegsBut_advance : KeepsRegsBut rs s t.advance ↔ KeepsRegsBut rs s t := Iff.rfl

@[simp] theorem keepsRegsBut_retreat : KeepsRegsBut rs s t.retreat ↔ KeepsRegsBut rs s t := Iff.rfl

theorem keepsRegsBut_loadRegs {k : Nat} {bs : List Byte} (h : ∀ j, k ≤ j → j < k + bs.length → BitVec.ofNat 4 j ∈ rs) :
    KeepsRegsBut rs s (t.loadRegs k bs) ↔ KeepsRegsBut rs s t := by
  induction bs generalizing t k with
  | nil => rfl
  | cons b bs ih =>
    rw [List.length_cons] at h
    rw [State.loadRegs, ih fun j hk hj => h j (by omega) (by omega), keepsRegsBut_setV (h k le_rfl (by omega))]

theorem keepsMemoryBut_writeBytes (s : State) (base : Nat) (bs : List Byte) :
    KeepsMemoryBut base bs.length s (s.setMem (s.mem.writeBytes base bs)) := fun a ha => by
  rw [State.setMem_mem, Memory.read_writeBytes, if_neg ha]

end Updates

/-! The access matrix (10_state.md R39), field by field. -/

/-- The row of the access matrix of `i` allows the change from `s` to `t`. -/
structure AccessRow (i : Instr) (s t : State) : Prop where
  fields : KeepsFieldsBut (writtenParts i) s t
  regs : KeepsRegsBut (writtenRegs i) s t
  memory : KeepsMemoryBut s.i.toNat (storedCount i) s t

section Rows
variable {i : Instr} {s t : State}

/-- An instruction whose row names neither registers nor memory. -/
theorem AccessRow.of_fields (hr : .regs ∉ writtenParts i) (hm : .memory ∉ writtenParts i)
    (h : KeepsFieldsBut (writtenParts i) s t) : AccessRow i s t :=
  ⟨h, h.keepsRegsBut hr _, h.keepsMemoryBut hm _ _⟩

/-- An instruction whose row names registers and not memory. -/
theorem AccessRow.of_regs (hm : .memory ∉ writtenParts i) (h : KeepsFieldsBut (writtenParts i) s t)
    (hr : KeepsRegsBut (writtenRegs i) s t) : AccessRow i s t :=
  ⟨h, hr, h.keepsMemoryBut hm _ _⟩

/-- An instruction that stores at `I`, as many bytes as its row says. -/
theorem AccessRow.of_storeAtI {bs : List Byte} (hp : writtenParts i = [.memory]) (hn : storedCount i = bs.length)
    (h : storeAtI bs s = .next t) : AccessRow i s t := by
  obtain ⟨_, rfl⟩ := storeAtI_next h
  have hf : KeepsFieldsBut (writtenParts i) s (s.setMem (s.mem.writeBytes s.i.toNat bs)) := by simp [hp]
  exact ⟨hf, hf.keepsRegsBut (by simp [hp]) _, hn ▸ keepsMemoryBut_writeBytes s _ bs⟩

/-- A key skip: `pc` alone. -/
theorem AccessRow.of_skipOnKey {x : Reg} {pressed : Bool} (hp : writtenParts i = [.pc])
    (h : skipOnKey x pressed s = .next t) : AccessRow i s t := by
  obtain ⟨c, rfl⟩ := skipOnKey_next h
  exact .of_fields (by simp [hp]) (by simp [hp]) (by simp [hp])

/-- Every instruction changes only what its row names. -/
theorem exec_accessRow (h : exec i s = .next t) : AccessRow i s t := by
  cases i with
  | sys nnn | cls | jp nnn | seImm x kk | sneImm x kk | seReg x y | sneReg x y | ldI nnn | jpV0 nnn | ldDtVx x | ldStVx x
  | addI x | ldF x =>
    cases h
    exact .of_fields (by simp [writtenParts]) (by simp [writtenParts]) (by simp [writtenParts])
  | ldImm x kk | addImm x kk | ldReg x y | orReg x y | andReg x y | xorReg x y | addReg x y | subReg x y | shrReg x y
  | subnReg x y | shlReg x y | rnd x kk | ldVxDt x =>
    cases h
    exact .of_regs (by simp [writtenParts]) (by simp [writtenParts]) (by simp [writtenRegs])
  | ret =>
    obtain ⟨v, rest, _, rfl⟩ := execRet_next h
    exact .of_fields (by simp [writtenParts]) (by simp [writtenParts]) (by simp [writtenParts])
  | call nnn =>
    obtain ⟨_, rfl⟩ := execCall_next h
    exact .of_fields (by simp [writtenParts]) (by simp [writtenParts]) (by simp [writtenParts])
  | drw x y n =>
    obtain ⟨fb, c, rfl⟩ := execDrw_next h
    exact .of_regs (by simp [writtenParts]) (by simp [writtenParts]) (by simp [writtenRegs])
  | skp x => exact .of_skipOnKey rfl h
  | sknp x => exact .of_skipOnKey rfl h
  | ldVxK x =>
    obtain ⟨k, _, rfl⟩ | ⟨_, rfl⟩ := execLdVxK_next h
    · exact .of_regs (by simp [writtenParts]) (by simp [writtenParts]) (by simp [writtenRegs])
    · exact .of_regs (by simp [writtenParts]) (by simp [writtenParts]) (by simp [writtenRegs])
  | ldB x => exact .of_storeAtI rfl rfl h
  | ldMemVx x => exact .of_storeAtI rfl (s.regRange_length x).symm h
  | ldVxMem x =>
    obtain rfl := execLdVxMem_next h
    refine .of_regs (by simp [writtenParts]) (by simp [writtenParts]) ((keepsRegsBut_loadRegs fun j _ hj => ?_).mpr
      (keepsRegsBut_self s))
    rw [Memory.readBytes_length, Nat.zero_add] at hj
    exact List.mem_map_of_mem (List.mem_range.mpr hj)

end Rows

/-! Who writes a part: the access matrix read by columns. -/

theorem mem_writtenParts_index {i : Instr} :
    .index ∈ writtenParts i ↔ (∃ nnn, i = .ldI nnn) ∨ ∃ x, i = .addI x ∨ i = .ldF x := by
  cases i <;> simp [writtenParts]

/-- Who writes `pc`: the jumps, the return, the key wait, and six skips, which move it by 2 or not at all. -/
theorem writtenParts_pc_cases {i : Instr} (h : .pc ∈ writtenParts i) :
    (i = .ret ∨ (∃ nnn, i = .jp nnn ∨ i = .call nnn ∨ i = .jpV0 nnn) ∨ ∃ x, i = .ldVxK x) ∨
    ∀ s t, exec i s = .next t → ∃ c, t = s.skipIf c := by
  cases i with
  | seImm x kk | sneImm x kk | seReg x y | sneReg x y => exact .inr fun s t ht => ⟨_, (Host.Outcome.next.inj ht).symm⟩
  | skp x | sknp x => exact .inr fun s t ht => skipOnKey_next ht
  | _ => exact .inl (by simp_all [writtenParts])

theorem mem_writtenParts_stack {i : Instr} : .stack ∈ writtenParts i ↔ i = .ret ∨ ∃ nnn, i = .call nnn := by
  cases i <;> simp [writtenParts]

theorem mem_writtenParts_delay {i : Instr} : .delay ∈ writtenParts i ↔ ∃ x, i = .ldDtVx x := by
  cases i <;> simp [writtenParts]

theorem mem_writtenParts_sound {i : Instr} : .sound ∈ writtenParts i ↔ ∃ x, i = .ldStVx x := by
  cases i <;> simp [writtenParts]

theorem keys_notMem_writtenParts (i : Instr) : .keys ∉ writtenParts i := by
  cases i <;> simp [writtenParts]

theorem mem_writtenParts_display {i : Instr} : .display ∈ writtenParts i ↔ i = .cls ∨ ∃ x y n, i = .drw x y n := by
  cases i <;> simp [writtenParts]

theorem mem_writtenParts_memory {i : Instr} : .memory ∈ writtenParts i ↔ ∃ x, i = .ldB x ∨ i = .ldMemVx x := by
  cases i <;> simp [writtenParts]

theorem mem_writtenParts_mode {i : Instr} : .mode ∈ writtenParts i ↔ ∃ x, i = .ldVxK x := by
  cases i <;> simp [writtenParts]

/-- Settles O20: the field frame of every row is at least as strong as the one through reads. -/
theorem accessMatrixHolds : Obligations.AccessMatrixHolds := by
  intro i s t h
  have hrow := exec_accessRow h
  exact ⟨hrow.fields.keepsBut, hrow.regs, hrow.memory⟩


/-! The whole step: which event a change needs. -/

section Events
variable {s t : State}

/-- A part other than `pc` that a step changes is written by the instruction at `pc`, or a wait has ended. -/
theorem step_changes_part {p : Part} (h : step s = .next t) (hp : ¬ p.same s t) (hpc : p ≠ .pc) :
    (s.mode = .waitingForKey ∧ (p = .regs ∨ p = .mode)) ∨
    (s.mode = .running ∧ ∃ i, fetchedInstr s = some i ∧ p ∈ writtenParts i) := by
  cases hm : s.mode with
  | waitingForKey =>
    refine .inl ⟨rfl, ?_⟩
    obtain ⟨k, _, rfl⟩ | ⟨_, rfl⟩ := step_waiting_next hm h
    · have hf : KeepsFieldsBut [.regs, .pc, .mode] s ((s.recordKey s.waitx k).advance.setMode .running) := by simp
      by_contra hno
      exact hp (hf.keepsBut p (by simpa [hpc] using hno))
    · exact absurd ((KeepsFieldsBut.refl (ps := []) _).keepsBut p (by simp)) hp
  | running =>
    have ha : p.same s s.advance := by
      have hf : KeepsFieldsBut [.pc] s s.advance := by simp
      exact hf.keepsBut p (by simpa using hpc)
    obtain ⟨_, rfl | ⟨i, hi, hx⟩⟩ := step_running_next hm h
    · exact absurd ha hp
    · refine .inr ⟨rfl, i, hi, ?_⟩
      by_contra hno
      have hf : KeepsFieldsBut (.pc :: writtenParts i) s t :=
        KeepsFieldsBut.trans (t := s.advance) (by simp) ((exec_accessRow hx).fields.mono (List.subset_cons_self _ _))
      exact hp (hf.keepsBut p (by simp [hpc, hno]))

/-- A part that is neither `pc`, the registers nor the mode changes by an instruction that writes it. -/
theorem step_changes_written {p : Part} (h : step s = .next t) (hp : ¬ p.same s t)
    (hpc : p ∉ [.pc, .regs, .mode]) : ∃ i, fetchedInstr s = some i ∧ p ∈ writtenParts i := by
  simp only [List.mem_cons, List.not_mem_nil, or_false, not_or] at hpc
  obtain ⟨hpc, hregs, hmode⟩ := hpc
  rcases step_changes_part h hp hpc with ⟨_, hr | hr⟩ | ⟨_, hi⟩
  · exact absurd hr hregs
  · exact absurd hr hmode
  · exact hi

theorem step_changes_reg (h : step s = .next t) {r : Reg} (hr : t.getV r ≠ s.getV r) :
    (s.mode = .waitingForKey ∧ r = s.waitx) ∨
    (s.mode = .running ∧ ∃ i, fetchedInstr s = some i ∧ r ∈ writtenRegs i) := by
  cases hm : s.mode with
  | waitingForKey =>
    refine .inl ⟨rfl, ?_⟩
    obtain ⟨k, _, rfl⟩ | ⟨_, rfl⟩ := step_waiting_next hm h
    · have hf : KeepsRegsBut [s.waitx] s ((s.recordKey s.waitx k).advance.setMode .running) := by simp
      by_contra hno
      exact hr (hf r (by simpa using hno))
    · exact absurd rfl hr
  | running =>
    obtain ⟨_, rfl | ⟨i, hi, hx⟩⟩ := step_running_next hm h
    · exact absurd rfl hr
    · refine .inr ⟨rfl, i, hi, ?_⟩
      by_contra hno
      exact hr ((exec_accessRow hx).regs r hno)

/-- The wait begins by an `Fx0A` that finds no key pressed; `pc` stays at it, and memory is not written. -/
theorem step_enters_wait (h : step s = .next t) (hs : s.mode = .running) (ht : t.mode = .waitingForKey) :
    (∀ k, s.getKey k = false) ∧ fetchedInstr s = some (.ldVxK t.waitx) ∧ t.pc = s.pc ∧ t.mem = s.mem := by
  have hch : ¬ Part.mode.same s t := fun he => by
    rw [show t.mode = s.mode from he, hs] at ht
    cases ht
  obtain ⟨_, rfl | ⟨i, hi, hx⟩⟩ := step_running_next hs h
  · exact absurd rfl hch
  · obtain ⟨x, rfl⟩ : ∃ x, i = .ldVxK x := mem_writtenParts_mode.mp <| by
      by_contra hno
      exact hch ((exec_accessRow hx).fields.keepsBut .mode hno)
    obtain ⟨k, _, rfl⟩ | ⟨hk, rfl⟩ := execLdVxK_next hx
    · exact absurd rfl hch
    · rw [State.retreat_advance]
      exact ⟨fun k => s.advance.keySelect_none.mp hk k, hi, rfl, rfl⟩

theorem step_leaves_wait (h : step s = .next t) (hs : s.mode = .waitingForKey) (ht : t.mode = .running) :
    ∃ k, s.getKey k = true := by
  obtain ⟨k, hk, _⟩ | ⟨_, rfl⟩ := step_waiting_next hs h
  · exact ⟨k, s.keySelect_some hk⟩
  · rw [hs] at ht
    cases ht

end Events

/-- Settles O21: each event read off the column of the access matrix of the part it changes. -/
theorem onlyTheseEventsChange : Obligations.OnlyTheseEventsChange := by
  intro s t h
  refine ⟨fun r hr => step_changes_reg h hr, fun hne => ?_, ?_, fun hne => ?_, fun hne => ?_, fun y x hne => ?_,
    fun a hne => ?_, fun hne => ?_, fun hs ht => ?_, step_leaves_wait h⟩
  · obtain ⟨i, hi, hw⟩ := step_changes_written (p := .index) h hne (by decide)
    obtain ⟨nnn, rfl⟩ | ⟨x, rfl | rfl⟩ := mem_writtenParts_index.mp hw
    · exact .inl ⟨nnn, hi⟩
    · exact .inr ⟨x, .inl hi⟩
    · exact .inr ⟨x, .inr hi⟩
  · by_contra hne
    obtain ⟨i, _, hw⟩ := step_changes_written (p := .keys) h hne (by decide)
    exact keys_notMem_writtenParts i hw
  · obtain ⟨i, hi, hw⟩ := step_changes_written (p := .delay) h hne (by decide)
    obtain ⟨x, rfl⟩ := mem_writtenParts_delay.mp hw
    exact ⟨x, hi⟩
  · obtain ⟨i, hi, hw⟩ := step_changes_written (p := .sound) h hne (by decide)
    obtain ⟨x, rfl⟩ := mem_writtenParts_sound.mp hw
    exact ⟨x, hi⟩
  · obtain ⟨i, hi, hw⟩ := step_changes_written (p := .display) h (fun he => hne (he y x)) (by decide)
    obtain rfl | ⟨x', y', n, rfl⟩ := mem_writtenParts_display.mp hw
    · exact .inl hi
    · exact .inr ⟨x', y', n, hi⟩
  · obtain ⟨i, hi, hw⟩ := step_changes_written (p := .memory) h (fun he => hne (he a)) (by decide)
    obtain ⟨x, rfl | rfl⟩ := mem_writtenParts_memory.mp hw
    · exact ⟨x, .inl hi⟩
    · exact ⟨x, .inr hi⟩
  · obtain ⟨i, hi, hw⟩ := step_changes_written (p := .stack) h hne (by decide)
    obtain rfl | ⟨nnn, rfl⟩ := mem_writtenParts_stack.mp hw
    · exact .inl hi
    · exact .inr ⟨nnn, hi⟩
  · obtain ⟨hk, hi, hpc, _⟩ := step_enters_wait h hs ht
    exact ⟨hk, hi, hpc⟩

/-! The invariants. -/

section Invariants
variable {i : Instr} {s t : State}

/-- The core invariant looks at memory, the stack, `pc` and the mode alone. -/
theorem coreInv_congr (hmem : t.mem = s.mem) (hst : t.stack = s.stack) (hpc : t.pc = s.pc) (hmode : t.mode = s.mode)
    (h : CoreInv s) : CoreInv t := by
  simpa only [CoreInv, State.sp_eq, hmem, hst, hpc, hmode] using h

theorem waitInv_congr (hmem : t.mem = s.mem) (hpc : t.pc = s.pc) (hmode : t.mode = s.mode) (hx : t.waitx = s.waitx)
    (h : WaitInv s) : WaitInv t := by
  simpa only [WaitInv, fetchedInstr_congr hmem hpc, hmode, hx] using h

theorem storeAtI_mem_wf {bs : List Byte} (h : storeAtI bs s = .next t) (hm : s.mem.wf) : t.mem.wf := by
  obtain ⟨hb, rfl⟩ := storeAtI_next h
  rcases hb with hb | hb
  · rw [List.length_eq_zero_iff.mp hb]
    exact hm
  · exact Memory.writeBytes_wf hm hb

theorem exec_mem_wf (h : exec i s = .next t) (hm : s.mem.wf) : t.mem.wf := by
  by_cases hw : .memory ∈ writtenParts i
  · obtain ⟨x, rfl | rfl⟩ := mem_writtenParts_memory.mp hw
    · exact storeAtI_mem_wf h hm
    · exact storeAtI_mem_wf h hm
  · rwa [show t.mem = s.mem from (exec_accessRow h).fields .memory hw]

/-- R34 (a) and (d): a push finds room and stores `npc`, a pop only takes away. -/
theorem exec_stack_bounds (h : exec i s = .next t) (hpc : s.pc.toNat ≤ 0x1000) (hsp : s.sp ≤ 16)
    (hst : ∀ e ∈ s.stack, e.toNat ≤ 0x1000) : t.sp ≤ 16 ∧ ∀ e ∈ t.stack, e.toNat ≤ 0x1000 := by
  by_cases hw : .stack ∈ writtenParts i
  · obtain rfl | ⟨nnn, rfl⟩ := mem_writtenParts_stack.mp hw
    · obtain ⟨v, rest, hs, rfl⟩ := execRet_next h
      rw [State.sp_eq, hs, List.length_cons] at hsp
      exact ⟨(Nat.le_succ _).trans hsp, fun e he => hst e (hs ▸ List.mem_cons_of_mem v he)⟩
    · obtain ⟨hlt, rfl⟩ := execCall_next h
      exact ⟨hlt, List.forall_mem_cons.mpr ⟨hpc, hst⟩⟩
  · rw [State.sp_eq, show t.stack = s.stack from (exec_accessRow h).fields .stack hw]
    exact ⟨hsp, hst⟩

theorem pc_add_two_toNat {w : Word} (h : w.toNat ≤ 0x1000) : (w + 2).toNat = w.toNat + 2 := by
  rw [BitVec.toNat_add, show (2 : Word).toNat = 2 from rfl]
  omega

theorem advance_pc_le (h : s.pc.toNat ≤ 0xFFE) : s.advance.pc.toNat ≤ 0x1000 := by
  rw [State.advance_pc, pc_add_two_toNat (by omega)]
  omega

/-- R38: the largest target is that of `Bnnn`, `0xFFF + 0xFF`. -/
theorem jpV0_target_le (nnn : Addr12) (b : Byte) : (target nnn + b.setWidth 16).toNat ≤ 0x10FE := by
  have hn := nnn.isLt
  have hb := b.isLt
  rw [BitVec.toNat_add, target_toNat, BitVec.toNat_setWidth]
  omega

theorem skipIf_pc_le {c : Bool} (h : s.pc.toNat ≤ 0x1000) : (s.skipIf c).pc.toNat ≤ 0x10FE := by
  rw [State.skipIf_pc]
  split
  · rw [pc_add_two_toNat h]
    omega
  · omega

/-- R38: what an instruction fetched at `pc` leaves in `pc`. -/
theorem exec_pc_le (h : exec i s.advance = .next t) (hpc : s.pc.toNat ≤ 0xFFE)
    (hst : ∀ e ∈ s.stack, e.toNat ≤ 0x1000) : t.pc.toNat ≤ 0x10FE := by
  have hadv := advance_pc_le hpc
  by_cases hw : .pc ∈ writtenParts i
  · obtain (rfl | ⟨nnn, rfl | rfl | rfl⟩ | ⟨x, rfl⟩) | hskip := writtenParts_pc_cases hw
    · obtain ⟨v, rest, hs, rfl⟩ := execRet_next h
      have hv : v.toNat ≤ 0x1000 := hst v (by rw [show s.stack = v :: rest from hs]; exact List.mem_cons_self)
      exact hv.trans (by decide)
    · obtain rfl := Host.Outcome.next.inj h
      have := nnn.isLt
      rw [State.setPc_pc, target_toNat]
      omega
    · obtain ⟨_, rfl⟩ := execCall_next h
      have := nnn.isLt
      rw [State.setPc_pc, target_toNat]
      omega
    · obtain rfl := Host.Outcome.next.inj h
      exact jpV0_target_le _ _
    · obtain ⟨k, _, rfl⟩ | ⟨_, rfl⟩ := execLdVxK_next h
      · exact hadv.trans (by decide)
      · rw [State.retreat_advance]
        exact hpc.trans (by decide)
    · obtain ⟨c, rfl⟩ := hskip _ _ h
      exact skipIf_pc_le hadv
  · rw [show t.pc = s.advance.pc from (exec_accessRow h).fields .pc hw]
    omega

theorem step_keeps_coreInv (hc : CoreInv s) (h : step s = .next t) : CoreInv t := by
  obtain ⟨hmem, hsp, hst, hpc, hwait⟩ := hc
  cases hm : s.mode with
  | waitingForKey =>
    obtain ⟨k, _, rfl⟩ | ⟨_, rfl⟩ := step_waiting_next hm h
    · exact ⟨hmem, hsp, hst, (advance_pc_le (hwait hm)).trans (by decide), nofun⟩
    · exact ⟨hmem, hsp, hst, hpc, hwait⟩
  | running =>
    have hwait' (ht : t.mode = .waitingForKey) : t.pc.toNat ≤ 0xFFE := by
      obtain ⟨_, _, hpc, _⟩ := step_enters_wait h hm ht
      rw [hpc]
      exact (step_running_next hm h).1
    obtain ⟨hpc, rfl | ⟨i, _, hx⟩⟩ := step_running_next hm h
    · exact ⟨hmem, hsp, hst, (advance_pc_le hpc).trans (by decide), hwait'⟩
    · obtain ⟨hsp', hst'⟩ := exec_stack_bounds hx (advance_pc_le hpc) hsp hst
      exact ⟨exec_mem_wf hx hmem, hsp', hst', exec_pc_le hx hpc hst, hwait'⟩

theorem step_keeps_waitInv (hw : WaitInv s) (h : step s = .next t) : WaitInv t := by
  intro ht
  cases hm : s.mode with
  | waitingForKey =>
    obtain ⟨k, _, rfl⟩ | ⟨_, rfl⟩ := step_waiting_next hm h
    · cases ht
    · exact hw ht
  | running =>
    obtain ⟨_, hi, hpc, hmem⟩ := step_enters_wait h hm ht
    rw [fetchedInstr_congr hmem hpc, hi]

theorem coreInv_resetWith (font : Font) : CoreInv (State.resetWith font) :=
  ⟨State.resetWith_wf font, Nat.zero_le _, nofun, by rw [State.resetWith_pc]; decide, nofun⟩

theorem waitInv_resetWith (font : Font) : WaitInv (State.resetWith font) := nofun

theorem hostStep_fst_cases : (hostStep s).1 = s ∨ step s = .next (hostStep s).1 := by
  unfold hostStep
  cases h : step s with
  | next t => cases unhandledOpcode s <;> exact .inr rfl
  | fault f => exact .inl rfl
  | refused r => exact .inl rfl

theorem loadRom_keeps_coreInv (rom : List Byte) (hc : CoreInv s) : CoreInv (perform (.loadRom rom) s).1 := by
  by_cases hl : Config.romMax < rom.length
  · simpa only [perform, hostLoadRom, if_pos hl] using hc
  · simp only [perform, hostLoadRom, if_neg hl]
    obtain ⟨hmem, hrest⟩ := hc
    have hfit : Config.progBase.toNat + rom.length ≤ Config.memSize := by
      simp only [Config.progBase, Config.romMax, Config.memSize] at hl ⊢
      simp
      omega
    exact ⟨Memory.writeBytes_wf hmem hfit, hrest⟩

theorem perform_keeps_coreInv (op : HostOp) (hc : CoreInv s) : CoreInv (perform op s).1 := by
  cases op with
  | reset font => exact coreInv_congr (s := State.resetWith font) rfl rfl rfl rfl (coreInv_resetWith font)
  | loadRom rom => exact loadRom_keeps_coreInv rom hc
  | step =>
    rcases hostStep_fst_cases (s := s) with he | he
    · exact he.symm ▸ hc
    · exact step_keeps_coreInv hc he
  | tick | keySet k b | readFramebuffer | readSound => exact coreInv_congr rfl rfl rfl rfl hc

theorem perform_keeps_waitInv {op : HostOp} (hop : ∀ rom, op ≠ .loadRom rom) (hw : WaitInv s) :
    WaitInv (perform op s).1 := by
  cases op with
  | reset font => exact waitInv_congr (s := State.resetWith font) rfl rfl rfl rfl (waitInv_resetWith font)
  | loadRom rom => exact absurd rfl (hop rom)
  | step =>
    rcases hostStep_fst_cases (s := s) with he | he
    · exact he.symm ▸ hw
    · exact step_keeps_waitInv hw he
  | tick | keySet k b | readFramebuffer | readSound => exact waitInv_congr rfl rfl rfl rfl hw

end Invariants

/-- Settles O17: the two invariants are kept each on its own; the waiting one needs no other. -/
theorem stepKeepsInvariants : Obligations.StepKeepsInvariants :=
  fun _ _ hc hw h => ⟨step_keeps_coreInv hc h, step_keeps_waitInv hw h⟩

/-- Settles O18, operation by operation: Step by the lemmas of O17, the other operations by what they leave alone. -/
theorem hostOperationsKeepInvariants : Obligations.HostOperationsKeepInvariants :=
  fun op _ hc => ⟨perform_keeps_coreInv op hc, fun hw hop => perform_keeps_waitInv hop hw⟩

/-- Settles O3: the default font is the case of `State.resetWith_default`. -/
theorem resetMeetsInvariants : Obligations.ResetMeetsInvariants := by
  refine ⟨?_, ?_, fun font => ⟨coreInv_resetWith font, waitInv_resetWith font⟩⟩
  · rw [← State.resetWith_default]
    exact coreInv_resetWith _
  · rw [← State.resetWith_default]
    exact waitInv_resetWith _

/-- Settles O1: the font shows in memory alone, every other part is that of `State.reset`. -/
theorem resetLeavesSpecifiedState : Obligations.ResetLeavesSpecifiedState := by
  refine ⟨fun font => ⟨rfl, rfl, rfl, rfl, State.reset_getKey, State.reset_pixel, rfl, fun k => ?_, fun a ha => ?_⟩,
    State.resetWith_default⟩
  · rw [State.resetWith_read]
    simp [fontBase]
  · rw [State.resetWith_read, dif_neg]
    simpa [fontBase] using ha

end Sys2Proof.Safety
end

section
/-! PROOFS of the family of 20_memory.md: what `Fx55` stored is what the next access reads. -/

namespace Sys2Proof.Machine

variable {s t : State} {x : Reg}

/-- An `Fx55` that answers a next state fits in memory, and the byte at `I + k` is then `V[k]` for every `k` up to `x`. -/
theorem execLdMemVx_next (h : execLdMemVx x s = .next t) :
    s.i.toNat + x.toNat ≤ 0xFFF ∧ ∀ k ≤ x.toNat, t.mem.read (s.i.toNat + k) = s.getV (BitVec.ofNat 4 k) := by
  obtain ⟨hfit, rfl⟩ := storeAtI_next h
  rw [State.regRange_length] at hfit
  refine ⟨by omega, fun k hk => ?_⟩
  have hin : s.i.toNat ≤ s.i.toNat + k ∧ s.i.toNat + k < s.i.toNat + (s.regRange x).length := by
    rw [State.regRange_length]; omega
  rw [State.setMem_mem, Memory.read_writeBytes, if_pos hin, Nat.add_sub_cancel_left, State.regRange_getD s x hk]

end Sys2Proof.Machine

namespace Sys2Proof.Safety

open Sys2Proof.Machine

/-- Settles O47: the store reaches `I + 1`, so a fetch at `I` is in range and its two bytes are `V[0]` and `V[1]`. -/
theorem fetchSeesStoredWord : Obligations.FetchSeesStoredWord := by
  intro s t u x h hx hmem hpc
  obtain ⟨hfit, hread⟩ := execLdMemVx_next h
  have h0 : t.mem.read s.i.toNat = s.getV 0 := hread 0 (Nat.zero_le _)
  have h1 : t.mem.read (s.i.toNat + 1) = s.getV 1 := hread 1 hx
  have hf : fetch u = .ok (wordOfBytes (s.getV 0) (s.getV 1)) := by
    rw [fetch_eq, hmem, hpc, if_pos (by omega), h0, h1]
  exact ⟨_, hf, by rw [wordOfBytes_toNat, Nat.mul_comm]⟩

end Sys2Proof.Safety
end

section
/-! PROOFS of the family of 30_encoding.md: decoding and encoding undo each other, the reserved words, the opcode map, and the
two shifts, whose `y` is decoded and ignored. -/

namespace Sys2Proof

/-! A word put together again from its fields, its family being known. -/

section Fields
variable {w : Word} {op : BitVec 4}

theorem fmtNNN_of_opField (h : opField w = op) : fmtNNN op (nnnField w) = w := h ▸ fmtNNN_fields w

theorem fmtXKK_of_opField (h : opField w = op) : fmtXKK op (xField w) (kkField w) = w := h ▸ fmtXKK_fields w

theorem fmtXYN_of_opField (h : opField w = op) : fmtXYN op (xField w) (yField w) (nField w) = w := h ▸ fmtXYN_fields w

end Fields

/-- The word of format `XYN` as the sum that the statements about single instructions write. -/
theorem ofNat_eq_fmtXYN (op : BitVec 4) (x y : Reg) (n : Nibble) :
    BitVec.ofNat 16 (4096 * op.toNat + n.toNat + 256 * x.toNat + 16 * y.toNat) = fmtXYN op x y n := by
  apply BitVec.eq_of_toNat_eq
  rw [BitVec.toNat_ofNat, fmtXYN_toNat]
  omega

theorem sysFieldOk_iff {nnn : Addr12} : sysFieldOk nnn = true ↔ nnn ≠ 0x0E0 ∧ nnn ≠ 0x0EE := by
  rw [sysFieldOk, Bool.and_eq_true, bne_iff_ne, bne_iff_ne]

/-! Decoding an assembled word. -/

theorem decodeWord_fmtNNN_zero {nnn : Addr12} (h : sysFieldOk nnn = true) :
    decodeWord (fmtNNN 0x0 nnn) = .instr (.sys nnn) := by
  obtain ⟨hcls, hret⟩ := sysFieldOk_iff.mp h
  have hw1 : fmtNNN 0x0 nnn ≠ 0x00E0 := fun he => hcls ((nnnField_fmtNNN _ _).symm.trans (congrArg nnnField he))
  have hw2 : fmtNNN 0x0 nnn ≠ 0x00EE := fun he => hret ((nnnField_fmtNNN _ _).symm.trans (congrArg nnnField he))
  rw [decodeWord_family0 (opField_fmtNNN _ _), decodeFamily0, if_neg hw1, if_neg hw2, nnnField_fmtNNN]

theorem decodeWord_fmtXYN_five (x y : Reg) : decodeWord (fmtXYN 0x5 x y 0x0) = .instr (.seReg x y) := by
  simp [decodeWord_family5, decodeLowNibble0]

theorem decodeWord_fmtXYN_nine (x y : Reg) : decodeWord (fmtXYN 0x9 x y 0x0) = .instr (.sneReg x y) := by
  simp [decodeWord_family9, decodeLowNibble0]

theorem decodeWord_fmtXYN_eight (x y : Reg) (n : Nibble) : decodeWord (fmtXYN 0x8 x y n) = decodeFamily8 x y n := by
  simp [decodeWord_family8]

theorem decodeWord_fmtXKK_fourteen (x : Reg) (kk : Byte) : decodeWord (fmtXKK 0xE x kk) = decodeFamilyE x kk := by
  simp [decodeWord_familyE]

theorem decodeWord_fmtXKK_fifteen (x : Reg) (kk : Byte) : decodeWord (fmtXKK 0xF x kk) = decodeFamilyF x kk := by
  simp [decodeWord_familyF]

/-- Decoding is a left inverse of encoding on well-formed instructions. -/
theorem decodeWord_encode {i : Instr} (h : i.wellFormed = true) : decodeWord (encode i) = .instr i := by
  cases i with
  | sys nnn => exact decodeWord_fmtNNN_zero h
  | cls | ret => rfl
  | jp nnn => simp [encode, decodeWord_family1]
  | call nnn => simp [encode, decodeWord_family2]
  | seImm x kk => simp [encode, decodeWord_family3]
  | sneImm x kk => simp [encode, decodeWord_family4]
  | ldImm x kk => simp [encode, decodeWord_family6]
  | addImm x kk => simp [encode, decodeWord_family7]
  | ldI nnn => simp [encode, decodeWord_familyA]
  | jpV0 nnn => simp [encode, decodeWord_familyB]
  | rnd x kk => simp [encode, decodeWord_familyC]
  | drw x y n => simp [encode, decodeWord_familyD]
  | seReg x y => exact decodeWord_fmtXYN_five x y
  | sneReg x y => exact decodeWord_fmtXYN_nine x y
  | ldReg x y | orReg x y | andReg x y | xorReg x y | addReg x y | subReg x y | shrReg x y | subnReg x y | shlReg x y =>
    exact decodeWord_fmtXYN_eight x y _
  | skp x | sknp x => exact decodeWord_fmtXKK_fourteen x _
  | ldVxDt x | ldVxK x | ldDtVx x | ldStVx x | addI x | ldF x | ldB x | ldMemVx x | ldVxMem x =>
    exact decodeWord_fmtXKK_fifteen x _

/-! What the sub-decoders accept encodes to the word they were given. -/

section Accepted
variable {w : Word} {x y : Reg} {n : Nibble} {kk : Byte} {i : Instr}

theorem encode_of_decodeFamily0 (hop : opField w = 0x0) (h : decodeFamily0 w = .instr i) :
    i.wellFormed = true ∧ encode i = w := by
  have hw : fmtNNN 0x0 (nnnField w) = w := fmtNNN_of_opField hop
  unfold decodeFamily0 at h
  split at h
  · next hcls => cases h; exact ⟨rfl, hcls.symm⟩
  · next hcls =>
    split at h
    · next hret => cases h; exact ⟨rfl, hret.symm⟩
    · next hret =>
      cases h
      have h1 : nnnField w ≠ 0x0E0 := fun he => hcls (by rw [← hw, he]; rfl)
      have h2 : nnnField w ≠ 0x0EE := fun he => hret (by rw [← hw, he]; rfl)
      exact ⟨sysFieldOk_iff.mpr ⟨h1, h2⟩, hw⟩

theorem eq_of_decodeLowNibble0 {f : Reg → Reg → Instr} {r : Reject} (h : decodeLowNibble0 w f r = .instr i) :
    nField w = 0x0 ∧ i = f (xField w) (yField w) := by
  unfold decodeLowNibble0 at h
  split at h
  · next hn => cases h; exact ⟨hn, rfl⟩
  · cases h

theorem encode_of_decodeFamily8 (h : decodeFamily8 x y n = .instr i) :
    i.wellFormed = true ∧ encode i = fmtXYN 0x8 x y n := by
  unfold decodeFamily8 at h
  split at h <;> cases h
  all_goals next hn => exact ⟨rfl, congrArg (fmtXYN 0x8 x y) (BitVec.eq_of_toNat_eq hn.symm)⟩

theorem encode_of_decodeFamilyE (h : decodeFamilyE x kk = .instr i) :
    i.wellFormed = true ∧ encode i = fmtXKK 0xE x kk := by
  unfold decodeFamilyE at h
  split at h <;> cases h
  all_goals next hk => exact ⟨rfl, congrArg (fmtXKK 0xE x) (BitVec.eq_of_toNat_eq hk.symm)⟩

theorem encode_of_decodeFamilyF (h : decodeFamilyF x kk = .instr i) :
    i.wellFormed = true ∧ encode i = fmtXKK 0xF x kk := by
  unfold decodeFamilyF at h
  split at h <;> cases h
  all_goals next hk => exact ⟨rfl, congrArg (fmtXKK 0xF x) (BitVec.eq_of_toNat_eq hk.symm)⟩

/-- What a word decodes to is well formed and encodes to that word. -/
theorem encode_of_decodeWord (h : decodeWord w = .instr i) : i.wellFormed = true ∧ encode i = w := by
  rcases opField_eq_cases w with hop | hop | hop | hop | hop | hop | hop | hop | hop | hop | hop | hop | hop | hop | hop | hop
  · exact encode_of_decodeFamily0 hop (by rwa [decodeWord_family0 hop] at h)
  · cases (decodeWord_family1 hop).symm.trans h; exact ⟨rfl, fmtNNN_of_opField hop⟩
  · cases (decodeWord_family2 hop).symm.trans h; exact ⟨rfl, fmtNNN_of_opField hop⟩
  · cases (decodeWord_family3 hop).symm.trans h; exact ⟨rfl, fmtXKK_of_opField hop⟩
  · cases (decodeWord_family4 hop).symm.trans h; exact ⟨rfl, fmtXKK_of_opField hop⟩
  · obtain ⟨hn, rfl⟩ := eq_of_decodeLowNibble0 ((decodeWord_family5 hop).symm.trans h)
    exact ⟨rfl, by rw [encode, ← hn, fmtXYN_of_opField hop]⟩
  · cases (decodeWord_family6 hop).symm.trans h; exact ⟨rfl, fmtXKK_of_opField hop⟩
  · cases (decodeWord_family7 hop).symm.trans h; exact ⟨rfl, fmtXKK_of_opField hop⟩
  · rw [← fmtXYN_of_opField hop]
    exact encode_of_decodeFamily8 (by rwa [decodeWord_family8 hop] at h)
  · obtain ⟨hn, rfl⟩ := eq_of_decodeLowNibble0 ((decodeWord_family9 hop).symm.trans h)
    exact ⟨rfl, by rw [encode, ← hn, fmtXYN_of_opField hop]⟩
  · cases (decodeWord_familyA hop).symm.trans h; exact ⟨rfl, fmtNNN_of_opField hop⟩
  · cases (decodeWord_familyB hop).symm.trans h; exact ⟨rfl, fmtNNN_of_opField hop⟩
  · cases (decodeWord_familyC hop).symm.trans h; exact ⟨rfl, fmtXKK_of_opField hop⟩
  · cases (decodeWord_familyD hop).symm.trans h; exact ⟨rfl, fmtXYN_of_opField hop⟩
  · rw [← fmtXKK_of_opField hop]
    exact encode_of_decodeFamilyE (by rwa [decodeWord_familyE hop] at h)
  · rw [← fmtXKK_of_opField hop]
    exact encode_of_decodeFamilyF (by rwa [decodeWord_familyF hop] at h)

end Accepted

/-! The reserved words. -/

section Reserved
variable {w : Word} {x y : Reg} {n : Nibble} {kk : Byte}

theorem decodeFamily0_not_reserved (r : Reject) : decodeFamily0 w ≠ .reserved r := by
  unfold decodeFamily0
  split_ifs <;> nofun

theorem decodeLowNibble0_reserved_iff {f : Reg → Reg → Instr} {r : Reject} :
    (∃ r', decodeLowNibble0 w f r = .reserved r') ↔ (nField w).toNat ≠ 0 := by
  have hz : (nField w).toNat = 0 ↔ nField w = 0 := BitVec.toNat_inj (y := 0)
  unfold decodeLowNibble0
  split <;> simp_all

theorem decodeFamily8_reserved_iff :
    (∃ r, decodeFamily8 x y n = .reserved r) ↔ n.toNat ∈ [0x8, 0x9, 0xA, 0xB, 0xC, 0xD, 0xF] := by
  have hn := n.isLt
  unfold decodeFamily8
  split
  case h_10 =>
    simp_all only [imp_false, Decoded.reserved.injEq, exists_eq', true_iff, List.mem_cons, List.not_mem_nil]
    omega
  all_goals simp_all

theorem decodeFamilyE_reserved_iff : (∃ r, decodeFamilyE x kk = .reserved r) ↔ kk.toNat ∉ [0x9E, 0xA1] := by
  unfold decodeFamilyE
  split <;> simp_all

theorem decodeFamilyF_reserved_iff :
    (∃ r, decodeFamilyF x kk = .reserved r) ↔
      kk.toNat ∉ [0x07, 0x0A, 0x15, 0x18, 0x1E, 0x29, 0x33, 0x55, 0x65] := by
  unfold decodeFamilyF
  split <;> simp_all

/-- The families outside the table of R66 have no reserved word. -/
theorem decodeWord_not_reserved (h : (opField w).toNat ∉ [0x5, 0x8, 0x9, 0xE, 0xF]) (r : Reject) :
    decodeWord w ≠ .reserved r := by
  rcases opField_eq_cases w with hop | hop | hop | hop | hop | hop | hop | hop | hop | hop | hop | hop | hop | hop | hop | hop
  case inl => exact decodeWord_family0 hop ▸ decodeFamily0_not_reserved r
  all_goals simp_all [decodeWord]

/-- The reserved words of R66, by the fields of the word. -/
theorem decodeWord_reserved_iff : (∃ r, decodeWord w = .reserved r) ↔
    ((opField w).toNat = 0x5 ∧ (nField w).toNat ≠ 0) ∨
    ((opField w).toNat = 0x8 ∧ (nField w).toNat ∈ [0x8, 0x9, 0xA, 0xB, 0xC, 0xD, 0xF]) ∨
    ((opField w).toNat = 0x9 ∧ (nField w).toNat ≠ 0) ∨
    ((opField w).toNat = 0xE ∧ (kkField w).toNat ∉ [0x9E, 0xA1]) ∨
    ((opField w).toNat = 0xF ∧ (kkField w).toNat ∉ [0x07, 0x0A, 0x15, 0x18, 0x1E, 0x29, 0x33, 0x55, 0x65]) := by
  by_cases hop : (opField w).toNat ∈ [0x5, 0x8, 0x9, 0xE, 0xF]
  · have hop' : opField w = 0x5 ∨ opField w = 0x8 ∨ opField w = 0x9 ∨ opField w = 0xE ∨ opField w = 0xF := by
      simpa [← BitVec.toNat_inj] using hop
    rcases hop' with h | h | h | h | h
    · rw [decodeWord_family5 h, decodeLowNibble0_reserved_iff]; simp [h]
    · rw [decodeWord_family8 h, decodeFamily8_reserved_iff]; simp [h]
    · rw [decodeWord_family9 h, decodeLowNibble0_reserved_iff]; simp [h]
    · rw [decodeWord_familyE h, decodeFamilyE_reserved_iff]; simp [h]
    · rw [decodeWord_familyF h, decodeFamilyF_reserved_iff]; simp [h]
  · have hnone : ¬ ∃ r, decodeWord w = .reserved r := fun ⟨r, hr⟩ => decodeWord_not_reserved hop r hr
    simp only [List.mem_cons, List.not_mem_nil, or_false, not_or] at hop
    obtain ⟨h5, h8, h9, hE, hF⟩ := hop
    simp [hnone, h5, h8, h9, hE, hF]

end Reserved

/-! The opcode map, cut into the sixteen families of the decoder. -/

/-- The rows of the opcode map whose high nibble is `op`, in the map's order. -/
def familyRows (op : BitVec 4) : List Row := opcodeTable.filter (opField ·.code == op)

/-- The opcode map answers a word as the decoder does: with the same mnemonic, or with no row at all. -/
def MapAgrees (w : Word) : Decoded → Prop
  | .instr i => (selectRow w).map Row.mnemonic = some (mnemonicOf i)
  | .reserved _ => selectRow w = none

section OpcodeMap
variable {w : Word} {op : BitVec 4} {m : String}

/-- Every mask of the map keeps the high nibble. -/
theorem opField_of_matchesWord {r : Row} (hr : r ∈ opcodeTable) (h : r.matchesWord w = true) : opField r.code = opField w := by
  have hmask : r.mask &&& 0xF000 = 0xF000 := (by decide : ∀ r ∈ opcodeTable, r.mask &&& 0xF000 = 0xF000) r hr
  have hop (v : Word) : opField (v &&& 0xF000) = opField v := by
    rw [← fmtNNN_fields v, fmtNNN_and_op, opField_fmtNNN, opField_fmtNNN]
  rw [Row.matchesWord, beq_iff_eq] at h
  rw [← h, ← hop, BitVec.and_assoc, hmask, hop]

theorem selectRow_eq_find_familyRows (hop : opField w = op) :
    selectRow w = (familyRows op).find? (·.matchesWord w) := by
  rw [familyRows, List.find?_filter, selectRow]
  refine List.find?_congr fun r hr => ?_
  cases hm : r.matchesWord w with
  | false => simp
  | true => simp [opField_of_matchesWord hr hm, hop]

/-! Whether a word matches a row of its own family, mask by mask. -/

theorem matchesWord_full (c : Word) : Row.matchesWord ⟨m, 0xFFFF, c⟩ w = decide (w = c) := by
  rw [Row.matchesWord, show w &&& 0xFFFF = w from BitVec.and_allOnes]
  rfl

theorem matchesWord_op (hop : opField w = op) : Row.matchesWord ⟨m, 0xF000, fmtNNN op 0⟩ w = true := by
  rw [← fmtNNN_of_opField hop, Row.matchesWord, fmtNNN_and_op, beq_self_eq_true]

theorem matchesWord_op_n (hop : opField w = op) (n : Nibble) :
    Row.matchesWord ⟨m, 0xF00F, fmtXYN op 0 0 n⟩ w = decide ((nField w).toNat = n.toNat) := by
  rw [Row.matchesWord, beq_eq_decide, decide_eq_decide, BitVec.toNat_inj, ← fmtXYN_of_opField hop, fmtXYN_and_op_n,
    nField_fmtXYN]
  exact ⟨fun h => by simpa using congrArg nField h, fun h => by rw [h]⟩

theorem matchesWord_op_kk (hop : opField w = op) (kk : Byte) :
    Row.matchesWord ⟨m, 0xF0FF, fmtXKK op 0 kk⟩ w = decide ((kkField w).toNat = kk.toNat) := by
  rw [Row.matchesWord, beq_eq_decide, decide_eq_decide, BitVec.toNat_inj, ← fmtXKK_of_opField hop, fmtXKK_and_op_kk,
    kkField_fmtXKK]
  exact ⟨fun h => by simpa using congrArg kkField h, fun h => by rw [h]⟩

/-! The families of the map. -/

theorem mapAgrees_of_familyRows_single {i : Instr} (hop : opField w = op)
    (hrows : familyRows op = [⟨mnemonicOf i, 0xF000, fmtNNN op 0⟩]) : MapAgrees w (.instr i) := by
  have hsel := selectRow_eq_find_familyRows hop
  rw [hrows, List.find?_cons, matchesWord_op hop] at hsel
  rw [MapAgrees, hsel, Option.map_some]

theorem mapAgrees_decodeFamily0 (hop : opField w = 0x0) : MapAgrees w (decodeFamily0 w) := by
  have hrows : familyRows 0x0 = [⟨"CLS", 0xFFFF, 0x00E0⟩, ⟨"RET", 0xFFFF, 0x00EE⟩, ⟨"SYS_nnn", 0xF000, fmtNNN 0x0 0⟩] := by
    decide
  have hsel := selectRow_eq_find_familyRows hop
  simp only [hrows, List.find?_cons, matchesWord_full, matchesWord_op hop] at hsel
  unfold decodeFamily0
  split_ifs with hcls hret <;> simp_all [MapAgrees, mnemonicOf]

theorem mapAgrees_decodeLowNibble0 {f : Reg → Reg → Instr} {r : Reject} (hop : opField w = op)
    (hrows : familyRows op = [⟨mnemonicOf (f (xField w) (yField w)), 0xF00F, fmtXYN op 0 0 0⟩]) :
    MapAgrees w (decodeLowNibble0 w f r) := by
  have hsel := selectRow_eq_find_familyRows hop
  simp only [hrows, List.find?_cons, matchesWord_op_n hop, BitVec.toNat_inj] at hsel
  unfold decodeLowNibble0
  split_ifs with hn <;> simp_all [MapAgrees]

theorem mapAgrees_decodeFamily8 (hop : opField w = 0x8) : MapAgrees w (decodeFamily8 (xField w) (yField w) (nField w)) := by
  have hrows : familyRows 0x8 =
      [⟨"LD_Vx__Vy", 0xF00F, fmtXYN 0x8 0 0 0x0⟩, ⟨"OR_Vx__Vy", 0xF00F, fmtXYN 0x8 0 0 0x1⟩,
       ⟨"AND_Vx__Vy", 0xF00F, fmtXYN 0x8 0 0 0x2⟩, ⟨"XOR_Vx__Vy", 0xF00F, fmtXYN 0x8 0 0 0x3⟩,
       ⟨"ADD_Vx__Vy", 0xF00F, fmtXYN 0x8 0 0 0x4⟩, ⟨"SUB_Vx__Vy", 0xF00F, fmtXYN 0x8 0 0 0x5⟩,
       ⟨"SHR_Vx", 0xF00F, fmtXYN 0x8 0 0 0x6⟩, ⟨"SUBN_Vx__Vy", 0xF00F, fmtXYN 0x8 0 0 0x7⟩,
       ⟨"SHL_Vx", 0xF00F, fmtXYN 0x8 0 0 0xE⟩] := by decide
  have hsel := selectRow_eq_find_familyRows hop
  simp only [hrows, List.find?_cons, List.find?_nil, matchesWord_op_n hop] at hsel
  unfold decodeFamily8
  split <;> simp_all [MapAgrees, mnemonicOf]

theorem mapAgrees_decodeFamilyE (hop : opField w = 0xE) : MapAgrees w (decodeFamilyE (xField w) (kkField w)) := by
  have hrows : familyRows 0xE =
      [⟨"SKP_Vx", 0xF0FF, fmtXKK 0xE 0 0x9E⟩, ⟨"SKNP_Vx", 0xF0FF, fmtXKK 0xE 0 0xA1⟩] := by decide
  have hsel := selectRow_eq_find_familyRows hop
  simp only [hrows, List.find?_cons, List.find?_nil, matchesWord_op_kk hop] at hsel
  unfold decodeFamilyE
  split <;> simp_all [MapAgrees, mnemonicOf]

theorem mapAgrees_decodeFamilyF (hop : opField w = 0xF) : MapAgrees w (decodeFamilyF (xField w) (kkField w)) := by
  have hrows : familyRows 0xF =
      [⟨"LD_Vx__DT", 0xF0FF, fmtXKK 0xF 0 0x07⟩, ⟨"LD_Vx__K", 0xF0FF, fmtXKK 0xF 0 0x0A⟩,
       ⟨"LD_DT__Vx", 0xF0FF, fmtXKK 0xF 0 0x15⟩, ⟨"LD_ST__Vx", 0xF0FF, fmtXKK 0xF 0 0x18⟩,
       ⟨"ADD_I__Vx", 0xF0FF, fmtXKK 0xF 0 0x1E⟩, ⟨"LD_F__Vx", 0xF0FF, fmtXKK 0xF 0 0x29⟩,
       ⟨"LD_B__Vx", 0xF0FF, fmtXKK 0xF 0 0x33⟩, ⟨"LD__I___Vx", 0xF0FF, fmtXKK 0xF 0 0x55⟩,
       ⟨"LD_Vx___I", 0xF0FF, fmtXKK 0xF 0 0x65⟩] := by decide
  have hsel := selectRow_eq_find_familyRows hop
  simp only [hrows, List.find?_cons, List.find?_nil, matchesWord_op_kk hop] at hsel
  unfold decodeFamilyF
  split <;> simp_all [MapAgrees, mnemonicOf]

theorem mapAgrees_decodeWord (w : Word) : MapAgrees w (decodeWord w) := by
  rcases opField_eq_cases w with hop | hop | hop | hop | hop | hop | hop | hop | hop | hop | hop | hop | hop | hop | hop | hop
  · exact decodeWord_family0 hop ▸ mapAgrees_decodeFamily0 hop
  · exact decodeWord_family1 hop ▸ mapAgrees_of_familyRows_single hop rfl
  · exact decodeWord_family2 hop ▸ mapAgrees_of_familyRows_single hop rfl
  · exact decodeWord_family3 hop ▸ mapAgrees_of_familyRows_single hop rfl
  · exact decodeWord_family4 hop ▸ mapAgrees_of_familyRows_single hop rfl
  · exact decodeWord_family5 hop ▸ mapAgrees_decodeLowNibble0 hop rfl
  · exact decodeWord_family6 hop ▸ mapAgrees_of_familyRows_single hop rfl
  · exact decodeWord_family7 hop ▸ mapAgrees_of_familyRows_single hop rfl
  · exact decodeWord_family8 hop ▸ mapAgrees_decodeFamily8 hop
  · exact decodeWord_family9 hop ▸ mapAgrees_decodeLowNibble0 hop rfl
  · exact decodeWord_familyA hop ▸ mapAgrees_of_familyRows_single hop rfl
  · exact decodeWord_familyB hop ▸ mapAgrees_of_familyRows_single hop rfl
  · exact decodeWord_familyC hop ▸ mapAgrees_of_familyRows_single hop rfl
  · exact decodeWord_familyD hop ▸ mapAgrees_of_familyRows_single hop rfl
  · exact decodeWord_familyE hop ▸ mapAgrees_decodeFamilyE hop
  · exact decodeWord_familyF hop ▸ mapAgrees_decodeFamilyF hop

end OpcodeMap

end Sys2Proof

namespace Sys2Proof.Machine

/-- A running step that fetches a reserved word reports that word (60_exceptions.md R172). -/
theorem unhandledOpcode_reserved {s : State} {w : Word} {r : Reject} (hm : s.mode = .running) (hf : fetch s = .ok w)
    (hd : decodeWord w = .reserved r) : unhandledOpcode s = some w := by
  simp only [unhandledOpcode, hm, hf, hd]

/-! A flag of a shift as the number it is written as. -/

theorem lowBit_flag_toNat (b : Byte) : (if lowBit b then 1 else 0 : Byte).toNat = b.toNat % 2 := by
  split_ifs with h
  · exact ((lowBit_iff b).mp h).symm
  · have := mt (lowBit_iff b).mpr h
    exact (by omega : 0 = b.toNat % 2)

theorem highBit_flag_toNat (b : Byte) : (if highBit b then 1 else 0 : Byte).toNat = b.toNat / 128 := by
  have := b.isLt
  split_ifs with h
  · have := (highBit_iff b).mp h
    exact (by omega : 1 = b.toNat / 128)
  · have := mt (highBit_iff b).mpr h
    exact (by omega : 0 = b.toNat / 128)

/-- The flag is written after the result, so it is the flag whatever the result's register. -/
theorem State.getVF_setResultFlag (s : State) (x : Reg) (b : Byte) (c : Bool) :
    (s.setResultFlag x b c).getVF = if c then 1 else 0 := by
  rw [State.getVF, State.getV_setResultFlag, if_pos rfl]

theorem State.getV_setResultFlag_result (s : State) {x : Reg} (b : Byte) (c : Bool) (hx : x ≠ 0xF) :
    (s.setResultFlag x b c).getV x = b := by
  rw [State.getV_setResultFlag, if_neg (show x ≠ flagReg from hx), if_pos rfl]

end Sys2Proof.Machine

namespace Sys2Proof.Safety

open Sys2Proof.Machine

theorem onlyRegs_setResultFlag (s : State) (x : Reg) (b : Byte) (c : Bool) :
    OnlyRegs [x, 0xF] s (s.setResultFlag x b c) :=
  ⟨((keepsFieldsBut_setResultFlag (by simp)).mpr (.refl s)).keepsBut,
    (keepsRegsBut_setResultFlag (by simp) (by simp [flagReg])).mpr (keepsRegsBut_self s)⟩

/-- Settles O4: the bytes of a word give the word back, so the bytes' part is the word's. -/
theorem decodeOfEncode : Obligations.DecodeOfEncode := fun i h =>
  ⟨decodeWord_encode h, fun rest => by simp [encodeBytes, decodeWord_encode h]⟩

/-- Settles O5, family by family. -/
theorem encodeOfDecode : Obligations.EncodeOfDecode := fun _ _ => encode_of_decodeWord

/-- Settles O6: the reserved words by their fields, the fields read as digits of the word. -/
theorem reservedWordsExactly : Obligations.ReservedWordsExactly := fun w => by
  rw [decodeWord_reserved_iff, opField_toNat, nField_toNat, kkField_toNat]

/-- Settles O7: in each family the decoder and the family's rows of the map look at the same field. -/
theorem decoderFollowsOpcodeMap : Obligations.DecoderFollowsOpcodeMap := mapAgrees_decodeWord

/-- Settles O10: the fetched word is the two bytes, so the step is the advance and the report that word. -/
theorem stepOnReservedWordAdvances : Obligations.StepOnReservedWordAdvances := by
  intro s r hm hpc hd
  rw [decodeBytes_pair] at hd
  have hf := (fetch_eq s).trans (if_pos hpc)
  exact ⟨⟨s.advance, step_reserved s hm hf hd, pc_add_two_toNat (by omega),
      ((keepsFieldsBut_advance (by simp)).mpr (.refl s)).keepsBut⟩,
    _, unhandledOpcode_reserved hm hf hd, by rw [wordOfBytes_toNat, Nat.mul_comm]⟩

/-- Settles O36: the word is that of format `XYN` with sub-code 6, and `y` is in no part of the answer. -/
theorem shiftRightDropsLowBit : Obligations.ShiftRightDropsLowBit := by
  refine fun x y => ⟨?_, fun s => ⟨_, rfl, ?_, fun hx => ?_, onlyRegs_setResultFlag s x _ _⟩⟩
  · exact (congrArg decodeWord (ofNat_eq_fmtXYN 0x8 x y 0x6)).trans (decodeWord_fmtXYN_eight x y 0x6)
  · rw [State.getVF_setResultFlag, lowBit_flag_toNat]
  · rw [State.getV_setResultFlag_result s _ _ hx, shr1_toNat]

/-- Settles O37: as O36, with sub-code E and bit 7. -/
theorem shiftLeftDropsHighBit : Obligations.ShiftLeftDropsHighBit := by
  refine fun x y => ⟨?_, fun s => ⟨_, rfl, ?_, fun hx => ?_, onlyRegs_setResultFlag s x _ _⟩⟩
  · exact (congrArg decodeWord (ofNat_eq_fmtXYN 0x8 x y 0xE)).trans (decodeWord_fmtXYN_eight x y 0xE)
  · rw [State.getVF_setResultFlag, highBit_flag_toNat]
  · rw [State.getV_setResultFlag_result s _ _ hx, shl1_toNat]

end Sys2Proof.Safety
end

section
/-! PROOFS of the family of 40_step_and_control_flow.md: the step and its outcomes, and the control-transfer instructions, each
read off an equation for its execution. -/

namespace Sys2Proof

/-! The words of the formats as the sums that the statements write. -/

theorem ofNat_eq_fmtNNN (op : BitVec 4) (nnn : Addr12) :
    BitVec.ofNat 16 (4096 * op.toNat + nnn.toNat) = fmtNNN op nnn := by
  apply BitVec.eq_of_toNat_eq
  rw [BitVec.toNat_ofNat, fmtNNN_toNat]
  omega

theorem ofNat_eq_fmtXKK (op : BitVec 4) (x : Reg) (kk : Byte) :
    BitVec.ofNat 16 (4096 * op.toNat + 256 * x.toNat + kk.toNat) = fmtXKK op x kk := by
  apply BitVec.eq_of_toNat_eq
  rw [BitVec.toNat_ofNat, fmtXKK_toNat]
  omega

/-- As `ofNat_eq_fmtXYN`, the four nibbles summed in their order. -/
theorem ofNat_nibbles_eq_fmtXYN (op : BitVec 4) (x y : Reg) (n : Nibble) :
    BitVec.ofNat 16 (4096 * op.toNat + 256 * x.toNat + 16 * y.toNat + n.toNat) = fmtXYN op x y n := by
  rw [← ofNat_eq_fmtXYN]
  congr 1
  omega

section Decoding
variable {op : BitVec 4} {nnn : Addr12} {x : Reg} {kk : Byte} {i : Instr}

theorem decodeWord_ofNat_nnn (he : encode i = fmtNNN op nnn) (hi : i.wellFormed = true) :
    decodeWord (BitVec.ofNat 16 (4096 * op.toNat + nnn.toNat)) = .instr i := by
  rw [ofNat_eq_fmtNNN, ← he, decodeWord_encode hi]

theorem decodeWord_ofNat_xkk (he : encode i = fmtXKK op x kk) (hi : i.wellFormed = true) :
    decodeWord (BitVec.ofNat 16 (4096 * op.toNat + 256 * x.toNat + kk.toNat)) = .instr i := by
  rw [ofNat_eq_fmtXKK, ← he, decodeWord_encode hi]

/-- A word `0nnn` is SYS exactly when the encoding of SYS admits its `nnn`. -/
theorem decodeWord_ofNat_sys_iff :
    decodeWord (BitVec.ofNat 16 nnn.toNat) = .instr (.sys nnn) ↔ nnn ≠ 0x0E0 ∧ nnn ≠ 0x0EE := by
  have hw : BitVec.ofNat 16 nnn.toNat = fmtNNN 0x0 nnn := by rw [← ofNat_eq_fmtNNN]; simp
  rw [← sysFieldOk_iff, hw]
  exact ⟨fun h => (encode_of_decodeWord h).1, decodeWord_fmtNNN_zero⟩

/-! With a low nibble other than 0, the families 5 and 9 are reserved (D15). -/

theorem decodeWord_fmtXYN_five_reserved (x y : Reg) {n : Nibble} (h : n ≠ 0) :
    decodeWord (fmtXYN 0x5 x y n) = .reserved .family5 := by
  rw [decodeWord_family5 (opField_fmtXYN _ _ _ _), decodeLowNibble0, nField_fmtXYN, if_neg h]

theorem decodeWord_fmtXYN_nine_reserved (x y : Reg) {n : Nibble} (h : n ≠ 0) :
    decodeWord (fmtXYN 0x9 x y n) = .reserved .family9 := by
  rw [decodeWord_family9 (opField_fmtXYN _ _ _ _), decodeLowNibble0, nField_fmtXYN, if_neg h]

end Decoding

end Sys2Proof

namespace Sys2Proof.Machine

open Sys2Proof.Safety

variable {s t : State}

/-! The step on a fetched instruction, and its report. -/

theorem fetchedInstr_eq_some {i : Instr} (h : fetchedInstr s = some i) :
    ∃ w, fetch s = .ok w ∧ decodeWord w = .instr i := by
  unfold fetchedInstr at h
  cases hf : fetch s with
  | error f => simp [hf] at h
  | ok w =>
    cases hd : decodeWord w with
    | reserved r => simp [hf, hd] at h
    | instr j => exact ⟨w, rfl, by simpa [hf, hd] using h⟩

theorem step_of_fetchedInstr {i : Instr} (hm : s.mode = .running) (h : fetchedInstr s = some i) :
    step s = exec i s.advance := by
  obtain ⟨w, hf, hd⟩ := fetchedInstr_eq_some h
  exact step_instr s hm hf hd

/-- The diagnostic is for reserved words only (R172). -/
theorem unhandledOpcode_of_fetchedInstr {i : Instr} (h : fetchedInstr s = some i) : unhandledOpcode s = none := by
  obtain ⟨w, hf, hd⟩ := fetchedInstr_eq_some h
  unfold unhandledOpcode
  cases s.mode <;> simp [hf, hd]

theorem hostStep_of_next (h : step s = .next t) :
    hostStep s = (t, .ok) ∨ ∃ w, hostStep s = (t, .unhandledOpcode w) := by
  unfold hostStep
  rw [h]
  cases unhandledOpcode s with
  | none => exact .inl rfl
  | some w => exact .inr ⟨w, rfl⟩

theorem hostStep_of_fault {f : Fault} (h : step s = .fault f) : hostStep s = (s, .fault f) := by
  rw [hostStep, h]

/-! The call and the return. -/

theorem execCall_eq (nnn : Addr12) :
    execCall nnn s = if 16 ≤ s.sp then .fault .stackOverflow
      else .next ((s.setStack (s.pc :: s.stack)).setPc (target nnn)) := by
  rw [execCall, State.push_eq]
  by_cases h : 16 ≤ s.sp
  · rw [if_pos h, if_pos h]; rfl
  · rw [if_neg h, if_neg h]

theorem execRet_nil (h : s.stack = []) : execRet s = .fault .stackUnderflow := by
  rw [execRet, s.pop_nil h]
  rfl

theorem execRet_cons {v : Word} {rest : List Word} (h : s.stack = v :: rest) :
    execRet s = .next ((s.setStack rest).setPc v) := by
  rw [execRet, s.pop_cons h]

theorem sp_eq_zero_iff : s.sp = 0 ↔ s.stack = [] := List.length_eq_zero_iff

/-! The program counter. -/

theorem setPc_advance_self : s.advance.setPc s.pc = s := rfl

theorem skipIf_pc_toNat (c : Bool) :
    (s.skipIf c).pc.toNat = if c then (s.pc.toNat + 2) % 65536 else s.pc.toNat := by
  cases c <;> simp

/-- The target of `Bnnn` is the exact sum: it does not wrap (R92). -/
theorem jpV0_target_toNat (nnn : Addr12) (b : Byte) : (target nnn + b.setWidth 16).toNat = nnn.toNat + b.toNat := by
  have hn := nnn.isLt
  have hb := b.isLt
  rw [BitVec.toNat_add, target_toNat, BitVec.toNat_setWidth]
  omega

/-! The outcome of an instruction, by the cause of its fault (60_exceptions.md R165, R176). -/

/-- The result is the fault, if there is one, and a next state otherwise. -/
def Answers : Option Fault → Result → Prop
  | some f, r => r = .fault f
  | none, r => ∃ t, r = .next t

theorem Answers.ite {c : Prop} [Decidable c] {f : Fault} {r : Result} (hf : c → r = .fault f)
    (hn : ¬ c → ∃ t, r = .next t) : Answers (if c then some f else none) r := by
  by_cases h : c
  · rw [if_pos h]; exact hf h
  · rw [if_neg h]; exact hn h

theorem storeAtI_answers {bs : List Byte} {n : Nat} (hn : bs.length = n + 1) :
    Answers (if 0xFFF < s.i.toNat + n then some (.addressOutOfRange (s.i.toNat + n)) else none) (storeAtI bs s) := by
  rw [storeAtI_eq, hn]
  refine .ite (fun h => ?_) (fun h => ?_)
  · rw [if_neg (by omega), ← Nat.add_assoc, Nat.add_sub_cancel]
  · rw [if_pos (by omega)]; exact ⟨_, rfl⟩

theorem skipOnKey_answers (x : Reg) (pressed : Bool) :
    Answers (if 0xF < (s.getV x).toNat then some (.keyIndexOutOfRange (s.getV x)) else none) (skipOnKey x pressed s) := by
  rw [skipOnKey_eq]
  exact .ite (fun h => if_pos h) (fun h => ⟨_, if_neg h⟩)

theorem execDrw_answers (x y : Reg) (n : Nibble) : Answers (faultOf (.drw x y n) s) (execDrw x y n s) := by
  unfold execDrw
  rw [memReadSpan_eq, State.base]
  refine .ite (fun h => ?_) (fun h => ?_)
  · rw [if_neg (by omega)]; rfl
  · rw [if_pos (by omega)]; exact ⟨_, rfl⟩

theorem execLdVxMem_answers (x : Reg) : Answers (faultOf (.ldVxMem x) s) (execLdVxMem x s) := by
  rw [execLdVxMem, memReadSpan_eq, State.base, rangeCount]
  refine .ite (fun h => ?_) (fun h => ?_)
  · rw [if_neg (by omega)]; rfl
  · rw [if_pos (by omega)]; exact ⟨_, rfl⟩

theorem execCall_answers (nnn : Addr12) : Answers (faultOf (.call nnn) s) (execCall nnn s) := by
  rw [execCall_eq]
  exact .ite (fun h => if_pos h) (fun h => ⟨_, if_neg h⟩)

theorem execRet_answers : Answers (faultOf .ret s) (execRet s) := by
  refine .ite (fun h => execRet_nil (sp_eq_zero_iff.mp h)) (fun h => ?_)
  obtain ⟨v, rest, hs⟩ := List.exists_cons_of_ne_nil (mt sp_eq_zero_iff.mpr h)
  exact ⟨_, execRet_cons hs⟩

theorem execLdVxK_isNext (x : Reg) (s : State) : ∃ t, execLdVxK x s = .next t := by
  unfold execLdVxK
  cases s.keySelect with
  | some k => exact ⟨_, rfl⟩
  | none => exact ⟨_, rfl⟩

theorem waitingStep_isNext (s : State) : ∃ t, waitingStep s = .next t := by
  unfold waitingStep
  cases s.keySelect with
  | some k => exact ⟨_, rfl⟩
  | none => exact ⟨_, rfl⟩

/-- An instruction faults on its cause and completes otherwise. -/
theorem exec_answers (i : Instr) (s : State) : Answers (faultOf i s) (exec i s) := by
  cases i with
  | call nnn => exact execCall_answers nnn
  | ret => exact execRet_answers
  | skp x => exact skipOnKey_answers x true
  | sknp x => exact skipOnKey_answers x false
  | drw x y n => exact execDrw_answers x y n
  | ldB x => exact storeAtI_answers rfl
  | ldMemVx x => exact storeAtI_answers (s.regRange_length x)
  | ldVxMem x => exact execLdVxMem_answers x
  | ldVxK x => exact execLdVxK_isNext x s
  | _ => exact ⟨_, rfl⟩

theorem exec_fault_of_faultOf {i : Instr} {f : Fault} (h : faultOf i s = some f) : exec i s = .fault f := by
  have ha := exec_answers i s
  rwa [h] at ha

/-- `memoryOverrun` is the fault of LoadROM alone (R174). -/
theorem faultOf_ne_memoryOverrun (i : Instr) (s : State) (n : Nat) : faultOf i s ≠ some (.memoryOverrun n) := by
  cases i with
  | call | ret | skp | sknp | drw | ldB | ldMemVx | ldVxMem => simp [faultOf]
  | _ => nofun

theorem exec_next_or_fault (i : Instr) (s : State) :
    (∃ t, exec i s = .next t) ∨ ∃ f, exec i s = .fault f ∧ ∀ n, f ≠ .memoryOverrun n := by
  have ha := exec_answers i s
  cases hc : faultOf i s with
  | none => exact .inl (by rwa [hc] at ha)
  | some f => exact .inr ⟨f, exec_fault_of_faultOf hc, fun n hn => faultOf_ne_memoryOverrun i s n (hn ▸ hc)⟩

/-! The outcome of a step. -/

theorem step_fault_of_fetch {f : Fault} (hm : s.mode = .running) (hf : fetch s = .error f) : step s = .fault f := by
  rw [step_running s hm, runningStep, hf]
  rfl

theorem step_fault_of_faultOf {i : Instr} {f : Fault} (hm : s.mode = .running) (hi : fetchedInstr s = some i)
    (h : faultOf i s.advance = some f) : step s = .fault f :=
  (step_of_fetchedInstr hm hi).trans (exec_fault_of_faultOf h)

theorem step_next_or_fault (s : State) :
    (∃ t, step s = .next t) ∨ ∃ f, step s = .fault f ∧ ∀ n, f ≠ .memoryOverrun n := by
  cases hm : s.mode with
  | waitingForKey => exact .inl (step_waiting s hm ▸ waitingStep_isNext s)
  | running =>
    by_cases hpc : s.pc.toNat ≤ 0xFFE
    · have hf := (fetch_eq s).trans (if_pos hpc)
      cases hd : decodeWord (wordOfBytes (s.mem.read s.pc.toNat) (s.mem.read (s.pc.toNat + 1))) with
      | reserved r => exact .inl ⟨_, step_reserved s hm hf hd⟩
      | instr i =>
        rw [step_instr s hm hf hd]
        exact exec_next_or_fault i s.advance
    · exact .inr ⟨_, step_fault_of_fetch hm ((fetch_eq s).trans (if_neg hpc)), nofun⟩

end Sys2Proof.Machine

namespace Sys2Proof.Safety

open Sys2Proof.Machine

/-! Frames of the control transfers. -/

theorem keepsBut_setPc (s : State) (w : Word) : KeepsBut [.pc] s (s.setPc w) :=
  KeepsFieldsBut.keepsBut (by simp)

theorem keepsBut_skipIf (s : State) (c : Bool) : KeepsBut [.pc] s (s.skipIf c) :=
  KeepsFieldsBut.keepsBut (by simp)

theorem keepsBut_setStack_setPc (s : State) (l : List Word) (w : Word) :
    KeepsBut [.pc, .stack] s ((s.setStack l).setPc w) :=
  KeepsFieldsBut.keepsBut (by simp)

/-! A skip on a comparison of two bytes. -/

theorem skipIf_beq_pc_toNat (s : State) (a b : Byte) :
    (s.skipIf (a == b)).pc.toNat = if a = b then (s.pc.toNat + 2) % 65536 else s.pc.toNat := by
  simp only [skipIf_pc_toNat, beq_iff_eq]

theorem skipIf_bne_pc_toNat (s : State) (a b : Byte) :
    (s.skipIf (a != b)).pc.toNat = if a = b then s.pc.toNat else (s.pc.toNat + 2) % 65536 := by
  simp only [skipIf_pc_toNat, bne_iff_ne, ite_not]

/-- Settles O13: a step faults only on the range of the fetch or on its instruction's cause. -/
theorem stepOutcomesAreThree : Obligations.StepOutcomesAreThree := by
  intro s
  obtain ⟨t, h⟩ | ⟨f, h, hf⟩ := step_next_or_fault s
  · exact .inl ⟨t, h, hostStep_of_next h⟩
  · refine .inr ⟨f, h, hostStep_of_fault h, ?_⟩
    cases f with
    | memoryOverrun n => exact absurd rfl (hf n)
    | stackOverflow | stackUnderflow | addressOutOfRange | keyIndexOutOfRange => simp

/-- Settles O23: the stack is empty, or its top becomes `pc` and the rest is the stack. -/
theorem returnPopsIntoPc : Obligations.ReturnPopsIntoPc := by
  refine ⟨rfl, fun s => ⟨fun hsp => execRet_nil (sp_eq_zero_iff.mp hsp), fun hsp => ?_, fun hm hi hsp => ?_⟩⟩
  · obtain ⟨v, rest, hs⟩ := List.exists_cons_of_length_pos hsp
    have hsp1 : s.sp - 1 = rest.length := by rw [State.sp_eq, hs, List.length_cons, Nat.add_sub_cancel]
    rw [hsp1]
    exact ⟨_, execRet_cons hs, (s.stackEntry_top hs).symm, rfl, fun k hk => (s.stackEntry_cons hs hk).symm,
      keepsBut_setStack_setPc s _ _⟩
  · exact hostStep_of_fault (step_fault_of_faultOf hm hi (if_pos hsp))

/-- Settles O25: the pushed entry is on top, and the older ones keep their index. -/
theorem callPushesReturnAddress : Obligations.CallPushesReturnAddress := by
  refine fun nnn => ⟨decodeWord_ofNat_nnn (i := .call nnn) (op := 0x2) rfl rfl,
    fun s => ⟨fun hsp => ?_, fun hsp => ?_, fun hm hi hsp => ?_⟩⟩
  · exact exec_fault_of_faultOf (if_pos hsp)
  · have hcall : execCall nnn s = .next ((s.setStack (s.pc :: s.stack)).setPc (target nnn)) :=
      (execCall_eq nnn).trans (if_neg (not_le.mpr hsp))
    exact ⟨_, hcall, target_toNat nnn, rfl, State.stackEntry_top _ rfl, fun k hk => State.stackEntry_cons _ rfl hk,
      keepsBut_setStack_setPc s _ _⟩
  · exact hostStep_of_fault (step_fault_of_faultOf hm hi (if_pos hsp))

/-- Settles O26: the top of the stack a call left is the caller's `npc`, and below it is the caller's stack. -/
theorem callThenReturnResumes : Obligations.CallThenReturnResumes := by
  intro s t u nnn h hu
  obtain ⟨_, rfl⟩ := execCall_next h
  exact ⟨_, execRet_cons hu, rfl, rfl, keepsBut_setStack_setPc u _ _⟩

/-- Settles O9: the fetched word is the two bytes. -/
theorem stepRunsDecodedInstruction : Obligations.StepRunsDecodedInstruction := by
  intro s i hm hpc _ hd
  rw [decodeBytes_pair] at hd
  have hi : fetchedInstr s = some i := fetchedInstr_of_decode ((fetch_eq s).trans (if_pos hpc)) hd
  exact ⟨step_of_fetchedInstr hm hi, unhandledOpcode_of_fetchedInstr hi⟩

/-- Settles O16: the jump undoes the advance. -/
theorem selfJumpIsStable : Obligations.SelfJumpIsStable := by
  intro s nnn hm hi hpc
  have ht : target nnn = s.pc := BitVec.eq_of_toNat_eq ((target_toNat nnn).trans hpc.symm)
  calc step s = .next (s.advance.setPc (target nnn)) := step_of_fetchedInstr hm hi
    _ = .next s := by rw [ht, setPc_advance_self]

/-- Settles O22: SYS executes to the state it is given, so a step on it is the advance. -/
theorem sysIsIgnored : Obligations.SysIsIgnored :=
  ⟨fun _ => decodeWord_ofNat_sys_iff, fun _ _ => rfl,
    fun _ _ hm hi => ⟨step_of_fetchedInstr hm hi, unhandledOpcode_of_fetchedInstr hi⟩⟩

/-- Settles O24: every `nnn` is a target, odd ones too. -/
theorem jumpSetsPc : Obligations.JumpSetsPc := fun nnn =>
  ⟨decodeWord_ofNat_nnn (i := .jp nnn) (op := 0x1) rfl rfl, fun s => ⟨_, rfl, target_toNat nnn, keepsBut_setPc s _⟩⟩

/-- Settles O27: each is a skip on the comparison of `V[x]` with `kk`. -/
theorem skipsOnImmediate : Obligations.SkipsOnImmediate := fun x kk =>
  ⟨decodeWord_ofNat_xkk (i := .seImm x kk) (op := 0x3) rfl rfl,
    decodeWord_ofNat_xkk (i := .sneImm x kk) (op := 0x4) rfl rfl, fun s =>
    ⟨⟨_, rfl, keepsBut_skipIf s _, skipIf_beq_pc_toNat s _ _⟩, ⟨_, rfl, keepsBut_skipIf s _, skipIf_bne_pc_toNat s _ _⟩⟩⟩

/-- Settles O28: as O27, with `V[y]`; the low nibble is the one the decoder looks at. -/
theorem skipsOnRegister : Obligations.SkipsOnRegister := by
  refine fun x y => ⟨?_, ?_, fun n hn => ⟨?_, ?_⟩, fun s =>
    ⟨⟨_, rfl, keepsBut_skipIf s _, skipIf_beq_pc_toNat s _ _⟩, ⟨_, rfl, keepsBut_skipIf s _, skipIf_bne_pc_toNat s _ _⟩⟩⟩
  · exact (congrArg decodeWord (ofNat_nibbles_eq_fmtXYN 0x5 x y 0)).trans (decodeWord_fmtXYN_five x y)
  · exact (congrArg decodeWord (ofNat_nibbles_eq_fmtXYN 0x9 x y 0)).trans (decodeWord_fmtXYN_nine x y)
  · exact (congrArg decodeWord (ofNat_nibbles_eq_fmtXYN 0x5 x y n)).trans (decodeWord_fmtXYN_five_reserved x y hn)
  · exact (congrArg decodeWord (ofNat_nibbles_eq_fmtXYN 0x9 x y n)).trans (decodeWord_fmtXYN_nine_reserved x y hn)

/-- Settles O29: the sum is at most `0xFFF + 0xFF`, so it does not wrap. -/
theorem jumpPlusV0 : Obligations.JumpPlusV0 := fun nnn =>
  ⟨decodeWord_ofNat_nnn (i := .jpV0 nnn) (op := 0xB) rfl rfl, fun s =>
    ⟨_, rfl, jpV0_target_toNat nnn _, jpV0_target_le nnn _, keepsBut_setPc s _⟩⟩

end Sys2Proof.Safety
end

section
/-! PROOFS of the family of 41_load_and_alu.md: the loads, the logic, the sum and the two differences, and the random byte. -/

namespace Sys2Proof

/-- As `decodeWord_ofNat_xkk`, for the format `XYN`. -/
theorem decodeWord_ofNat_xyn {op : BitVec 4} {x y : Reg} {n : Nibble} {i : Instr} (he : encode i = fmtXYN op x y n)
    (hi : i.wellFormed = true) :
    decodeWord (BitVec.ofNat 16 (4096 * op.toNat + n.toNat + 256 * x.toNat + 16 * y.toNat)) = .instr i := by
  rw [ofNat_eq_fmtXYN, ← he, decodeWord_encode hi]

end Sys2Proof

namespace Sys2Proof.Machine

theorem State.getV_setV_same (s : State) (x : Reg) (b : Byte) : (s.setV x b).getV x = b := by
  rw [State.getV_setV, if_pos rfl]

/-- The flag, written after the result, is the number of the condition it stands for, whatever the result's register (R100). -/
theorem State.getVF_setResultFlag_toNat (s : State) (x : Reg) (b : Byte) {c : Bool} {p : Prop} [Decidable p]
    (h : c = true ↔ p) : (s.setResultFlag x b c).getVF.toNat = if p then 1 else 0 := by
  simp only [State.getVF_setResultFlag, h, apply_ite BitVec.toNat]
  rfl

/-- A difference is the integer difference modulo 256 (R108, R110). -/
theorem diff8_toNat_int (a b : Byte) : ((diff8 a b).toNat : Int) = (a.toNat - b.toNat : Int) % 256 := by
  have hb := b.isLt
  rw [diff8_toNat]
  omega

end Sys2Proof.Machine

namespace Sys2Proof.Safety

open Sys2Proof.Machine

theorem onlyRegs_setV (s : State) (x : Reg) (b : Byte) : OnlyRegs [x] s (s.setV x b) :=
  ⟨((keepsFieldsBut_setV (by simp)).mpr (.refl s)).keepsBut, (keepsRegsBut_setV (by simp)).mpr (keepsRegsBut_self s)⟩

/-- The counter of draws is in no part of the state that a frame looks at. -/
theorem onlyRegs_countDraw {regs : List Reg} {s t : State} (h : OnlyRegs regs s t) : OnlyRegs regs s t.countDraw := by
  obtain ⟨hparts, hregs⟩ := h
  refine ⟨fun p hp => ?_, hregs⟩
  have hsame := hparts p hp
  cases p <;> exact hsame

/-- Settles O30: the answer is the write of `kk` to `V[x]`. -/
theorem loadImmediate : Obligations.LoadImmediate := fun x kk =>
  ⟨decodeWord_ofNat_xkk (i := .ldImm x kk) (op := 0x6) rfl rfl, fun s =>
    ⟨_, rfl, s.getV_setV_same x kk, onlyRegs_setV s x _⟩⟩

/-- Settles O31: the one register written is `V[x]`, so `VF` changes only as the result of `x = F`. -/
theorem addImmediateWraps : Obligations.AddImmediateWraps := by
  refine fun x kk => ⟨decodeWord_ofNat_xkk (i := .addImm x kk) (op := 0x7) rfl rfl, fun s =>
    ⟨_, rfl, ?_, onlyRegs_setV s x _⟩⟩
  rw [State.getV_setV_same, sum8_toNat]

/-- Settles O32: the answer is the write of the old `V[y]` to `V[x]`. -/
theorem copyRegister : Obligations.CopyRegister := fun x y =>
  ⟨decodeWord_ofNat_xyn (i := .ldReg x y) (op := 0x8) (n := 0x0) rfl rfl, fun s =>
    ⟨_, rfl, s.getV_setV_same x _, onlyRegs_setV s x _⟩⟩

/-- Settles O33: each writes one register, `V[x]`, and the bits of the result are the operator's on the old bits. -/
theorem logicInstructions : Obligations.LogicInstructions := by
  refine fun x y => ⟨decodeWord_ofNat_xyn (i := .orReg x y) (op := 0x8) (n := 0x1) rfl rfl,
    decodeWord_ofNat_xyn (i := .andReg x y) (op := 0x8) (n := 0x2) rfl rfl,
    decodeWord_ofNat_xyn (i := .xorReg x y) (op := 0x8) (n := 0x3) rfl rfl, fun s =>
    ⟨⟨_, rfl, onlyRegs_setV s x _, fun k _ => ?_⟩, ⟨_, rfl, onlyRegs_setV s x _, fun k _ => ?_⟩,
      ⟨_, rfl, onlyRegs_setV s x _, fun k _ => ?_⟩⟩⟩
  · rw [State.getV_setV_same, BitVec.getLsbD_or]
  · rw [State.getV_setV_same, BitVec.getLsbD_and]
  · rw [State.getV_setV_same, BitVec.getLsbD_xor]

/-- Settles O34: the carry is written last, so with `x = F` it replaces the sum. -/
theorem addSetsCarry : Obligations.AddSetsCarry := by
  refine fun x y => ⟨decodeWord_ofNat_xyn (i := .addReg x y) (op := 0x8) (n := 0x4) rfl rfl, fun s =>
    ⟨_, rfl, s.getVF_setResultFlag_toNat x _ (carry_iff _ _), fun hx => ?_, onlyRegs_setResultFlag s x _ _⟩⟩
  rw [State.getV_setResultFlag_result s _ _ hx, sum8_toNat]

/-- Settles O35: as O34, with the difference and its strict flag; SUBN is SUB with the operands exchanged. -/
theorem subtractionsSetStrictGreater : Obligations.SubtractionsSetStrictGreater := by
  refine fun x y => ⟨decodeWord_ofNat_xyn (i := .subReg x y) (op := 0x8) (n := 0x5) rfl rfl,
    decodeWord_ofNat_xyn (i := .subnReg x y) (op := 0x8) (n := 0x7) rfl rfl, fun s =>
    ⟨⟨_, rfl, s.getVF_setResultFlag_toNat x _ (greater_iff _ _), fun hx => ?_, onlyRegs_setResultFlag s x _ _⟩,
      ⟨_, rfl, s.getVF_setResultFlag_toNat x _ (greater_iff _ _), fun hx => ?_, onlyRegs_setResultFlag s x _ _⟩⟩⟩
  · rw [State.getV_setResultFlag_result s _ _ hx, diff8_toNat_int]
  · rw [State.getV_setResultFlag_result s _ _ hx, diff8_toNat_int]

/-- Settles O38: whatever byte is drawn, its conjunction with `kk` lies inside `kk`. -/
theorem randomByteIsMasked : Obligations.RandomByteIsMasked := by
  refine fun x kk => ⟨decodeWord_ofNat_xkk (i := .rnd x kk) (op := 0xC) rfl rfl, fun s => ?_⟩
  have hres : (s.setV x (kk &&& Config.rnd s.draws)).countDraw.getV x = kk &&& Config.rnd s.draws :=
    s.getV_setV_same x _
  refine ⟨_, rfl, hres, ?_, ?_, rfl, onlyRegs_countDraw (onlyRegs_setV s x _)⟩
  · rw [hres, BitVec.and_comm kk, BitVec.and_assoc, BitVec.and_not_self]
    exact BitVec.and_zero
  · rw [hres, BitVec.toNat_and]
    exact Nat.and_le_left

end Sys2Proof.Safety
end

section
/-! PROOFS of the family of 42_index_and_memory.md: the writes of `I`, what a transfer that answers a next state stored or
loaded, and the two round trips through memory. -/

namespace Sys2Proof

/-- As `decodeWord_ofNat_xkk`, the sub-code `kk` summed with the family (format `X`). -/
theorem decodeWord_ofNat_x {op : BitVec 4} {x : Reg} {kk : Byte} {i : Instr} (he : encode i = fmtXKK op x kk)
    (hi : i.wellFormed = true) :
    decodeWord (BitVec.ofNat 16 (4096 * op.toNat + kk.toNat + 256 * x.toNat)) = .instr i := by
  rw [Nat.add_right_comm, decodeWord_ofNat_xkk he hi]

end Sys2Proof

namespace Sys2Proof.Machine

section Transfers
variable {s t : State} {x : Reg} {bs : List Byte}

/-- After a store at `I` the byte at `I + k` is the `k`-th stored. -/
theorem storeAtI_read (h : storeAtI bs s = .next t) {k : Nat} (hk : k < bs.length) :
    t.mem.read (s.i.toNat + k) = bs.getD k 0 := by
  obtain ⟨_, rfl⟩ := storeAtI_next h
  rw [State.setMem_mem, Memory.read_writeBytes, if_pos (by omega), Nat.add_sub_cancel_left]

/-- An `Fx33` that answers a next state fits in memory, and the three bytes at `I` are then the decimal digits of `V[x]`. -/
theorem execLdB_next (h : execLdB x s = .next t) :
    s.i.toNat + 2 ≤ 0xFFF ∧
    (t.mem.read s.i.toNat).toNat = (s.getV x).toNat / 100 ∧
    (t.mem.read (s.i.toNat + 1)).toNat = (s.getV x).toNat / 10 % 10 ∧
    (t.mem.read (s.i.toNat + 2)).toNat = (s.getV x).toNat % 10 := by
  have hv := (s.getV x).isLt
  have hlen : (bcdDigits (s.getV x)).length = 3 := rfl
  obtain ⟨hfit, _⟩ := storeAtI_next h
  have h0 : t.mem.read s.i.toNat = BitVec.ofNat 8 ((s.getV x).toNat / 100) := storeAtI_read h (k := 0) (by omega)
  have h1 : t.mem.read (s.i.toNat + 1) = BitVec.ofNat 8 ((s.getV x).toNat / 10 % 10) := storeAtI_read h (by omega)
  have h2 : t.mem.read (s.i.toNat + 2) = BitVec.ofNat 8 ((s.getV x).toNat % 10) := storeAtI_read h (by omega)
  rw [h0, h1, h2]
  simp only [BitVec.toNat_ofNat]
  omega

/-- `execLdMemVx_next` for a register in the place of its number. -/
theorem execLdMemVx_read (h : execLdMemVx x s = .next t) {r : Reg} (hr : r.toNat ≤ x.toNat) :
    t.mem.read (s.i.toNat + r.toNat) = s.getV r := by
  obtain ⟨_, hread⟩ := execLdMemVx_next h
  rw [hread r.toNat hr, BitVec.ofNat_toNat, BitVec.setWidth_eq]

/-- After an `Fx65` the registers up to `x` hold the bytes at `I, I+1, ...`, the others what they held. -/
theorem execLdVxMem_getV (h : execLdVxMem x s = .next t) (r : Reg) :
    t.getV r = if r.toNat ≤ x.toNat then s.mem.read (s.i.toNat + r.toNat) else s.getV r := by
  have hx := x.isLt
  have hlen := s.mem.readBytes_length s.i.toNat (x.toNat + 1)
  rw [execLdVxMem_next h, State.getV_loadRegs _ _ _ _ (by omega), hlen]
  by_cases hr : r.toNat ≤ x.toNat
  · rw [if_pos (by omega), if_pos hr, Nat.sub_zero, Memory.readBytes_getD _ _ _ _ (by omega)]
  · rw [if_neg (by omega), if_neg hr]

end Transfers

/-- The sum of `I` and a byte, modulo 65536 (R121). -/
theorem add_setWidth_toNat (w : Word) (b : Byte) : (w + b.setWidth 16).toNat = (w.toNat + b.toNat) % 65536 := by
  have hb := b.isLt
  rw [BitVec.toNat_add, BitVec.toNat_setWidth]
  omega

end Sys2Proof.Machine

namespace Sys2Proof.Safety

open Sys2Proof.Machine

theorem keepsBut_setI (s : State) (w : Word) : KeepsBut [.index] s (s.setI w) :=
  KeepsFieldsBut.keepsBut (by simp)

/-- An instruction whose fault has no cause completes, and within its row of the access matrix. -/
theorem exec_next_of_faultOf_none {i : Instr} {s : State} (h : faultOf i s = none) :
    ∃ t, exec i s = .next t ∧ AccessRow i s t := by
  have ha := exec_answers i s
  rw [h] at ha
  obtain ⟨t, ht⟩ := ha
  exact ⟨t, ht, exec_accessRow ht⟩

/-- Settles O42: the range is the cause of the fault, the digits are the bytes stored, the frame is the access matrix. -/
theorem storeDecimalDigits : Obligations.StoreDecimalDigits := by
  refine fun x => ⟨decodeWord_ofNat_x (i := .ldB x) (op := 0xF) (kk := 0x33) rfl rfl, fun s =>
    ⟨fun hout => exec_fault_of_faultOf (if_pos hout), fun hin => ?_⟩⟩
  obtain ⟨t, ht, hrow⟩ := exec_next_of_faultOf_none (i := .ldB x) (if_neg (Nat.not_lt.mpr hin))
  obtain ⟨_, hhundreds, htens, hones⟩ := execLdB_next ht
  exact ⟨t, ht, hhundreds, htens, hones, hrow.memory, hrow.fields.keepsBut⟩

/-- Settles O43: as O42, with the registers as the bytes stored; `I` is in the frame. -/
theorem storeRegisterRange : Obligations.StoreRegisterRange := by
  refine fun x => ⟨decodeWord_ofNat_x (i := .ldMemVx x) (op := 0xF) (kk := 0x55) rfl rfl, fun s =>
    ⟨fun hout => exec_fault_of_faultOf (if_pos hout), fun hin => ?_⟩⟩
  obtain ⟨t, ht, hrow⟩ := exec_next_of_faultOf_none (i := .ldMemVx x) (if_neg (Nat.not_lt.mpr hin))
  exact ⟨t, ht, fun _ => execLdMemVx_read ht, hrow.memory, hrow.fields.keepsBut⟩

/-- Settles O44: as O42, with the bytes read in the registers up to `x`; `I` is in the frame. -/
theorem loadRegisterRange : Obligations.LoadRegisterRange := by
  refine fun x => ⟨decodeWord_ofNat_x (i := .ldVxMem x) (op := 0xF) (kk := 0x65) rfl rfl, fun s =>
    ⟨fun hout => exec_fault_of_faultOf (if_pos hout), fun hin => ?_⟩⟩
  obtain ⟨t, ht, hrow⟩ := exec_next_of_faultOf_none (i := .ldVxMem x) (if_neg (Nat.not_lt.mpr hin))
  exact ⟨t, ht, execLdVxMem_getV ht, hrow.fields.keepsBut⟩

/-- An `Fx65` in range completes, with the bytes at `I` in the registers up to `x` and `I` kept. -/
theorem execLdVxMem_loads {x : Reg} {s : State} (hin : s.i.toNat + x.toNat ≤ 0xFFF) :
    ∃ t, exec (.ldVxMem x) s = .next t ∧
      (∀ r : Reg, r.toNat ≤ x.toNat → t.getV r = s.mem.read (s.i.toNat + r.toNat)) ∧ t.i = s.i := by
  obtain ⟨t, ht, hrow⟩ := exec_next_of_faultOf_none (i := .ldVxMem x) (if_neg (Nat.not_lt.mpr hin))
  exact ⟨t, ht, fun r hr => (execLdVxMem_getV ht r).trans (if_pos hr), hrow.fields .index (by simp [writtenParts])⟩

/-- Settles O45: the load reads at `I + r` the `V[r]` the store put there; the store's range is the load's. -/
theorem storeThenLoadRestores : Obligations.StoreThenLoadRestores := by
  intro s t u x h hmem hi
  obtain ⟨hin, _⟩ := execLdMemVx_next h
  obtain ⟨w, hw, hregs, hwi⟩ := execLdVxMem_loads (x := x) (s := u) (by rwa [hi])
  refine ⟨w, hw, fun r hr => ?_, hwi.trans hi⟩
  rw [hregs r hr, hmem, hi, execLdMemVx_read h hr]

/-- Settles O46: `Fx33` keeps `I`, so the load reads the three digits, which are those of a byte. -/
theorem decimalDigitsMakeUpNumber : Obligations.DecimalDigitsMakeUpNumber := by
  intro s t x h
  have hv := (s.getV x).isLt
  obtain ⟨hin, hhundreds, htens, hones⟩ := execLdB_next h
  have hi : t.i = s.i := (exec_accessRow h).fields .index (by simp [writtenParts])
  obtain ⟨w, hw, hregs, _⟩ := execLdVxMem_loads (x := 2) (s := t) (by rwa [hi])
  have h0 : w.getV 0 = t.mem.read s.i.toNat := hi ▸ hregs 0 (by decide)
  have h1 : w.getV 1 = t.mem.read (s.i.toNat + 1) := hi ▸ hregs 1 (by decide)
  have h2 : w.getV 2 = t.mem.read (s.i.toNat + 2) := hi ▸ hregs 2 (by decide)
  refine ⟨w, hw, ?_⟩
  rw [h0, h1, h2, hhundreds, htens, hones]
  omega

/-- Settles O39: the answer is the write of `nnn` to `I`. -/
theorem loadIndex : Obligations.LoadIndex := fun nnn =>
  ⟨decodeWord_ofNat_nnn (i := .ldI nnn) (op := 0xA) rfl rfl, fun s => ⟨_, rfl, target_toNat nnn, keepsBut_setI s _⟩⟩

/-- Settles O40: the one part written is `I`, so no flag is. -/
theorem addToIndex : Obligations.AddToIndex := fun x =>
  ⟨decodeWord_ofNat_x (i := .addI x) (op := 0xF) (kk := 0x1E) rfl rfl, fun s =>
    ⟨_, rfl, add_setWidth_toNat s.i _, keepsBut_setI s _⟩⟩

/-- Settles O41: five times a byte is exact in 16 bits. -/
theorem glyphAddressIsFiveTimes : Obligations.GlyphAddressIsFiveTimes := fun x =>
  ⟨decodeWord_ofNat_x (i := .ldF x) (op := 0xF) (kk := 0x29) rfl rfl, fun s =>
    ⟨_, rfl, glyphAddress_toNat _, keepsBut_setI s _⟩⟩

end Sys2Proof.Safety
end

section
/-! PROOFS of the family of 43_display.md: the pixels under a sprite read from memory are those of the closed form, a draw flips
them and reports a collision, and a second draw flips them back. -/

namespace Sys2Proof.Machine

/-- A byte is not 0 exactly when one of the eight columns of its sprite row is on. -/
theorem exists_spriteColumn_iff (b : Byte) : (∃ c < 8, spriteColumn b c = true) ↔ b ≠ 0 := by
  constructor
  · rintro ⟨c, _, hc⟩ rfl
    simp [spriteColumn] at hc
  · intro hb
    by_contra hno
    refine hb (BitVec.eq_of_getLsbD_eq fun j hj => ?_)
    have hcol : spriteColumn b (7 - j) = false := Bool.eq_false_iff.mpr fun h => hno ⟨7 - j, by omega, h⟩
    rwa [spriteColumn, Nat.sub_sub_self (Nat.le_of_lt_succ hj), ← BitVec.getLsbD_zero] at hcol

/-- A sprite has a bit of 1 on some pixel exactly when one of its rows is not 0. -/
theorem exists_spriteOn_iff (vx vy : Nat) (bs : List Byte) :
    (∃ q p, SpriteOn vx vy bs q p) ↔ ∃ r < bs.length, bs.getD r 0 ≠ 0 := by
  constructor
  · rintro ⟨_, _, r, hr, _, c, hc, _, hbit⟩
    exact ⟨r, hr, (exists_spriteColumn_iff _).mp ⟨c, hc, hbit⟩⟩
  · rintro ⟨r, hr, hb⟩
    obtain ⟨c, hc, hbit⟩ := (exists_spriteColumn_iff _).mpr hb
    exact ⟨_, _, r, hr, rfl, c, hc, rfl, hbit⟩

/-- A sprite's height is within the 32 rows of the framebuffer, so its rows fall on different ones. -/
theorem nibble_le_32 (n : Nibble) : n.toNat ≤ 32 := Nat.le_of_lt (n.isLt.trans (by decide))

theorem State.getVF_setVF (s : State) (c : Bool) : (s.setVF c).getVF = if c then 1 else 0 := by
  rw [State.getVF, State.getV_setVF, if_pos rfl]

end Sys2Proof.Machine

namespace Sys2Proof.Safety

open Sys2Proof.Machine

/-! The closed form of a draw, solved for the row and the column of the sprite. -/

theorem eq_fbRow_add_iff (vy : Byte) (q : Fin 32) {r : Nat} (hr : r < 32) :
    q = fbRow (vy.toNat + r) ↔ r = spriteRowAt vy q := by
  have hq := q.isLt
  rw [eq_fbRow_iff, spriteRowAt]
  omega

theorem eq_fbColumn_add_iff (vx : Byte) (p : Fin 64) {c : Nat} (hc : c < 64) :
    p = fbColumn (vx.toNat + c) ↔ c = spriteColAt vx p := by
  have hp := p.isLt
  rw [eq_fbColumn_iff, spriteColAt]
  omega

/-- A sprite of at most 32 rows read from memory is on a pixel exactly when the one bit the closed form looks at is 1. -/
theorem spriteOn_readBytes_iff (m : Memory) (base : Nat) (vx vy : Byte) {n : Nat} (hn : n ≤ 32) (q : Fin 32) (p : Fin 64) :
    SpriteOn vx.toNat vy.toNat (m.readBytes base n) q p ↔ spriteCovers m base vx vy n q p = true := by
  simp only [SpriteOn, spriteCovers, Memory.readBytes_length, Bool.and_eq_true, decide_eq_true_eq]
  constructor
  · rintro ⟨r, hr, hq, c, hc, hp, hbit⟩
    obtain rfl := (eq_fbRow_add_iff vy q (by omega)).mp hq
    obtain rfl := (eq_fbColumn_add_iff vx p (by omega)).mp hp
    exact ⟨⟨hr, hc⟩, Memory.readBytes_getD m base n _ hr ▸ hbit⟩
  · rintro ⟨⟨hr, hc⟩, hbit⟩
    exact ⟨_, hr, (eq_fbRow_add_iff vy q (by omega)).mpr rfl, _, hc, (eq_fbColumn_add_iff vx p (by omega)).mpr rfl,
      (Memory.readBytes_getD m base n _ hr).symm ▸ hbit⟩

/-- A draw of a sprite read from memory, in the closed form (R137 (a)). -/
theorem drawSprite_readBytes (fb : Framebuffer) (m : Memory) (base : Nat) (vx vy : Byte) {n : Nat} (hn : n ≤ 32) :
    (∀ q p, (drawSprite fb vx.toNat vy.toNat (m.readBytes base n)).fb.pixel q p =
      (fb.pixel q p ^^ spriteCovers m base vx vy n q p)) ∧
    ((drawSprite fb vx.toNat vy.toNat (m.readBytes base n)).collision = true ↔
      ∃ q p, spriteCovers m base vx vy n q p = true ∧ fb.pixel q p = true) := by
  obtain ⟨hpix, hcol⟩ := drawSprite_spec fb vx.toNat vy.toNat (m.readBytes base n) (by rwa [Memory.readBytes_length])
  simp only [spriteOn_readBytes_iff m base vx vy hn] at hpix hcol
  refine ⟨fun q p => ?_, hcol⟩
  rw [Bool.eq_iff_iff, hpix]
  cases fb.pixel q p with
  | false => simp
  | true => simp

/-- Some pixel is under the sprite exactly when one of the sprite's bytes is not 0. -/
theorem exists_spriteCovers_iff (m : Memory) (base : Nat) (vx vy : Byte) {n : Nat} (hn : n ≤ 32) :
    (∃ q p, spriteCovers m base vx vy n q p = true) ↔ ∃ k, k < n ∧ m.read (base + k) ≠ 0 := by
  calc (∃ q p, spriteCovers m base vx vy n q p = true)
      ↔ ∃ q p, SpriteOn vx.toNat vy.toNat (m.readBytes base n) q p := by simp only [spriteOn_readBytes_iff m base vx vy hn]
    _ ↔ ∃ k < (m.readBytes base n).length, (m.readBytes base n).getD k 0 ≠ 0 := exists_spriteOn_iff _ _ _
    _ ↔ ∃ k, k < n ∧ m.read (base + k) ≠ 0 := by
      rw [Memory.readBytes_length]
      exact exists_congr fun k => and_congr_right fun hk => by rw [Memory.readBytes_getD m base n k hk]

/-- From `s` to `t` the pixels that `on` holds of are flipped, and `VF` tells whether one of them was lit (R136, R138). -/
structure FlipsPixels (on : Fin 32 → Fin 64 → Bool) (s t : State) : Prop where
  pixels : ∀ q p, t.fb.pixel q p = (s.fb.pixel q p ^^ on q p)
  flag : t.getVF = 0 ∨ t.getVF = 1
  collides : t.getVF = 1 ↔ ∃ q p, on q p = true ∧ s.fb.pixel q p = true

section Draws
variable {on : Fin 32 → Fin 64 → Bool} {s t u w : State} {x y x' y' : Reg} {n : Nibble}

/-- A draw that answers a next state has flipped the pixels under the sprite at `I`, read in the state before. -/
theorem flipsPixels_of_execDrw (h : execDrw x y n s = .next t) :
    FlipsPixels (spriteCovers s.mem s.i.toNat (s.getV x) (s.getV y) n.toNat) s t := by
  rw [execDrw, memReadSpan_eq] at h
  by_cases hb : n.toNat = 0 ∨ s.base + n.toNat ≤ 4096
  · rw [if_pos hb] at h
    obtain rfl := Host.Outcome.next.inj h
    obtain ⟨hpix, hcol⟩ := drawSprite_readBytes s.fb s.mem s.i.toNat (s.getV x) (s.getV y) (nibble_le_32 n)
    refine ⟨hpix, ?_, ?_⟩
    · rw [State.getVF_setVF]
      exact (ite_eq_or_eq _ _ _).symm
    · rw [State.getVF_setVF, ← hcol, State.base]
      simp
  · rw [if_neg hb] at h
    cases h

/-- A second flip of the same pixels undoes the first. -/
theorem FlipsPixels.pixels_twice (h : FlipsPixels on s t) (h' : FlipsPixels on u w) (hu : u.fb = t.fb) (q : Fin 32)
    (p : Fin 64) : w.fb.pixel q p = s.fb.pixel q p := by
  rw [h'.pixels, hu, h.pixels, Bool.xor_assoc, Bool.xor_self, Bool.xor_false]

/-- A flip of pixels that are all off collides with none. -/
theorem FlipsPixels.getVF_of_blank (h : FlipsPixels on s t) (hblank : ∀ q p, s.fb.pixel q p = false) : t.getVF = 0 := by
  refine h.flag.resolve_right fun hVF => ?_
  obtain ⟨q, p, _, hlit⟩ := h.collides.mp hVF
  rw [hblank q p] at hlit
  cases hlit

/-- The pixels lit after a flip from a blank framebuffer are the flipped ones, so the second flip collides with each. -/
theorem FlipsPixels.collides_twice (h : FlipsPixels on s t) (h' : FlipsPixels on u w) (hu : u.fb = t.fb)
    (hblank : ∀ q p, s.fb.pixel q p = false) : w.getVF = 1 ↔ ∃ q p, on q p = true := by
  rw [h'.collides]
  refine exists_congr fun q => exists_congr fun p => ?_
  rw [hu, h.pixels, hblank, Bool.false_xor, and_self]

end Draws

theorem keepsBut_setFb (s : State) (fb : Framebuffer) : KeepsBut [.display] s (s.setFb fb) :=
  KeepsFieldsBut.keepsBut (by simp)

theorem faultOf_none_of_exec_next {i : Instr} {s t : State} (h : exec i s = .next t) : faultOf i s = none := by
  cases hf : faultOf i s with
  | none => rfl
  | some f => cases h.symm.trans (exec_fault_of_faultOf hf)

/-- Settles O49: the range is the cause of the fault, the frame is the access matrix. -/
theorem drawXorsSprite : Obligations.DrawXorsSprite := by
  refine fun x y n => ⟨?_, fun s => ⟨fun hpos hout => ?_, fun hin => ?_⟩⟩
  · exact (congrArg decodeWord (ofNat_nibbles_eq_fmtXYN 0xD x y n)).trans (decodeWord_encode (i := .drw x y n) rfl)
  · exact exec_fault_of_faultOf (if_pos ⟨hpos, hout⟩)
  · have hfault : faultOf (.drw x y n) s = none := if_neg (by omega)
    obtain ⟨t, ht, hrow⟩ := exec_next_of_faultOf_none hfault
    obtain ⟨hpix, hflag, hcol⟩ := flipsPixels_of_execDrw ht
    exact ⟨t, ht, hpix, hflag, hcol, hrow.fields.keepsBut, hrow.regs⟩

/-- Settles O50: both draws read the same sprite and the same coordinates, so they flip the same pixels. -/
theorem drawTwiceRestores : Obligations.DrawTwiceRestores := by
  intro s t u x y x' y' n ht hfb hmem hi hx hy
  have hfault : faultOf (.drw x' y' n) u = none := by
    rw [← faultOf_none_of_exec_next ht, faultOf, faultOf, hi]
  obtain ⟨w, hw, _⟩ := exec_next_of_faultOf_none hfault
  have hst := flipsPixels_of_execDrw ht
  have huw := flipsPixels_of_execDrw hw
  rw [hmem, hi, hx, hy] at huw
  refine ⟨w, hw, hst.pixels_twice huw hfb, fun hblank => ⟨hst.getVF_of_blank hblank, ?_⟩⟩
  rw [hst.collides_twice huw hfb hblank, exists_spriteCovers_iff _ _ _ _ (nibble_le_32 n)]

/-- Settles O48: the one part written is the display, so `VF` is kept. -/
theorem clearTurnsAllPixelsOff : Obligations.ClearTurnsAllPixelsOff :=
  ⟨rfl, fun _ => ⟨_, rfl, Framebuffer.pixel_clear, keepsBut_setFb _ _⟩⟩

end Sys2Proof.Safety
end

section
/-! PROOFS of the family of 44_keypad_and_timers.md: what a selected key, or none, makes of `Fx0A` and of the waiting step, the
skips on a key, and the copies between `V[x]` and the timers. -/

namespace Sys2Proof.Machine

section Keypad
variable {s : State} {x k : Reg}

/-- With a key pressed, some pressed key is selected. -/
theorem State.exists_keySelect (h : ∃ k, s.getKey k = true) : ∃ k, s.keySelect = some k ∧ s.getKey k = true := by
  obtain ⟨j, hj⟩ := h
  cases hs : s.keySelect with
  | none => cases hj.symm.trans (s.keySelect_none.mp hs j)
  | some k => exact ⟨k, rfl, s.keySelect_some hs⟩

theorem State.recordKey_getV_toNat (s : State) (x k : Reg) : ((s.recordKey x k).getV x).toNat = k.toNat := by
  have hk := k.isLt
  rw [State.getV_recordKey, if_pos rfl, BitVec.toNat_setWidth]
  omega

/-! The two cases of `KeySelect`, for the wait instruction and for the waiting step. -/

theorem execLdVxK_of_some (h : s.keySelect = some k) : execLdVxK x s = .next (s.recordKey x k) := by
  rw [execLdVxK, h]

theorem execLdVxK_of_none (h : s.keySelect = none) :
    execLdVxK x s = .next ((s.retreat.setMode .waitingForKey).setWaitx x) := by
  rw [execLdVxK, h]

theorem waitingStep_of_some (h : s.keySelect = some k) :
    waitingStep s = .next ((s.recordKey s.waitx k).advance.setMode .running) := by
  rw [waitingStep, h]

theorem waitingStep_of_none (h : s.keySelect = none) : waitingStep s = .next s := by
  rw [waitingStep, h]

/-- The waiting step fetches nothing: it does the same over any memory. -/
theorem waitingStep_setMem {t : State} (h : waitingStep s = .next t) (m : Memory) :
    waitingStep (s.setMem m) = .next (t.setMem m) := by
  obtain ⟨k, hk, rfl⟩ | ⟨hk, rfl⟩ := waitingStep_next h
  · exact waitingStep_of_some (s := s.setMem m) hk
  · exact waitingStep_of_none (s := t.setMem m) hk

/-- The diagnostic is for a fetched word, so a waiting step reports none. -/
theorem unhandledOpcode_waiting (h : s.mode = .waitingForKey) : unhandledOpcode s = none := by
  rw [unhandledOpcode, h]

/-- A key skip on a key index is the skip on that key's state. -/
theorem skipOnKey_of_index (hk : (s.getV x).toNat = k.toNat) (pressed : Bool) :
    skipOnKey x pressed s = .next (s.skipIf (s.getKey k == pressed)) := by
  have hlt := k.isLt
  have hkey : (s.getV x).setWidth 4 = k := BitVec.eq_of_toNat_eq (by rw [BitVec.toNat_setWidth]; omega)
  rw [skipOnKey, hkey]
  exact if_neg (by omega)

end Keypad

end Sys2Proof.Machine

namespace Sys2Proof.Safety

open Sys2Proof.Machine

theorem keepsBut_setDt (s : State) (b : Byte) : KeepsBut [.delay] s (s.setDt b) :=
  KeepsFieldsBut.keepsBut (by simp)

theorem keepsBut_setSt (s : State) (b : Byte) : KeepsBut [.sound] s (s.setSt b) :=
  KeepsFieldsBut.keepsBut (by simp)

theorem onlyRegs_recordKey (s : State) (x k : Reg) : OnlyRegs [x] s (s.recordKey x k) :=
  onlyRegs_countDraw (onlyRegs_setV s x _)

/-- The end of the wait (R150): the recorded key is in a register. -/
theorem keepsBut_endOfWait (s : State) (k : Reg) :
    KeepsBut [.regs, .pc, .mode] s ((s.recordKey s.waitx k).advance.setMode .running) :=
  KeepsFieldsBut.keepsBut (by simp)

/-- The beginning of the wait (R148): nothing is recorded yet. -/
theorem keepsBut_beginOfWait (s : State) (x : Reg) :
    KeepsBut [.pc, .mode, .waitx] s ((s.retreat.setMode .waitingForKey).setWaitx x) :=
  KeepsFieldsBut.keepsBut (by simp)

/-- The waiting step and the `Fx0A` of `WAITX` at `npc`, from the same keypad: the same answer but for the mode (R154). -/
theorem answerWithoutMode_waitingStep (s : State) :
    answerWithoutMode (waitingStep s) = answerWithoutMode (execLdVxK s.waitx (s.setMode .running).advance) := by
  cases hk : s.keySelect with
  | some k =>
    rw [waitingStep_of_some hk, execLdVxK_of_some (s := (s.setMode .running).advance) hk]
    rfl
  | none =>
    rw [waitingStep_of_none hk, execLdVxK_of_none (s := (s.setMode .running).advance) hk, State.retreat_advance]
    rfl

/-- Settles O12: the two cases of `KeySelect`. -/
theorem waitingStepEndsOnKey : Obligations.WaitingStepEndsOnKey := by
  intro s hm
  refine ⟨fun hnone => ?_, fun hsome => ?_, fun m t h => ?_, unhandledOpcode_waiting hm⟩
  · rw [step_waiting s hm, waitingStep_of_none (s.keySelect_none.mpr hnone)]
  · obtain ⟨k, hk, hpressed⟩ := State.exists_keySelect hsome
    obtain ⟨_, hregs⟩ := onlyRegs_recordKey s s.waitx k
    exact ⟨_, k, (step_waiting s hm).trans (waitingStep_of_some hk), hpressed, s.recordKey_getV_toNat s.waitx k, rfl, rfl,
      keepsBut_endOfWait s k, hregs⟩
  · rw [step_waiting s hm] at h
    rw [step_waiting (s.setMem m) hm, waitingStep_setMem h]

/-- Settles O19: the instruction fetched in RUNNING is the `Fx0A` that `WaitInv` places under `pc`. -/
theorem waitingStepIsRefetch : Obligations.WaitingStepIsRefetch := by
  intro s hm hw
  have hi : fetchedInstr (s.setMode .running) = some (.ldVxK s.waitx) :=
    (fetchedInstr_congr (s := s) rfl rfl).trans (hw hm)
  rw [step_waiting s hm, step_of_fetchedInstr rfl hi]
  exact answerWithoutMode_waitingStep s

/-- Settles O52: as O12, with `pc` back at the instruction when the wait begins. -/
theorem keyWaitRecordsOrWaits : Obligations.KeyWaitRecordsOrWaits := by
  refine fun x => ⟨decodeWord_ofNat_x (i := .ldVxK x) (op := 0xF) (kk := 0x0A) rfl rfl, fun s =>
    ⟨fun hsome => ?_, fun hnone => ?_⟩⟩
  · obtain ⟨k, hk, hpressed⟩ := State.exists_keySelect hsome
    exact ⟨_, k, execLdVxK_of_some hk, hpressed, s.recordKey_getV_toNat x k, onlyRegs_recordKey s x k⟩
  · exact ⟨_, execLdVxK_of_none (s.keySelect_none.mpr hnone), rfl, rfl, rfl, keepsBut_beginOfWait s x⟩

/-- Settles O51: above 0xF the index is the cause of the fault, else both are skips on the state of key `k`. -/
theorem skipsOnKey : Obligations.SkipsOnKey := by
  refine fun x => ⟨decodeWord_ofNat_x (i := .skp x) (op := 0xE) (kk := 0x9E) rfl rfl,
    decodeWord_ofNat_x (i := .sknp x) (op := 0xE) (kk := 0xA1) rfl rfl, fun s => ⟨fun hout => ?_, fun k hk => ?_⟩⟩
  · exact ⟨exec_fault_of_faultOf (i := .skp x) (if_pos hout), exec_fault_of_faultOf (i := .sknp x) (if_pos hout)⟩
  · refine ⟨⟨_, skipOnKey_of_index hk true, keepsBut_skipIf s _, ?_⟩,
      ⟨_, skipOnKey_of_index hk false, keepsBut_skipIf s _, ?_⟩⟩
    · rw [skipIf_pc_toNat, beq_true]
    · rw [skipIf_pc_toNat]
      cases s.getKey k <;> rfl

/-- Settles O53: each answer is one write, of `V[x]` or of a timer. -/
theorem timerInstructions : Obligations.TimerInstructions := fun x =>
  ⟨decodeWord_ofNat_x (i := .ldVxDt x) (op := 0xF) (kk := 0x07) rfl rfl,
    decodeWord_ofNat_x (i := .ldDtVx x) (op := 0xF) (kk := 0x15) rfl rfl,
    decodeWord_ofNat_x (i := .ldStVx x) (op := 0xF) (kk := 0x18) rfl rfl, fun s =>
    ⟨⟨_, rfl, s.getV_setV_same x _, onlyRegs_setV s x _⟩, ⟨_, rfl, rfl, keepsBut_setDt s _⟩,
      ⟨_, rfl, rfl, keepsBut_setSt s _⟩⟩⟩

end Sys2Proof.Safety
end

section
/-! PROOFS of the family of 60_exceptions.md: an instruction faults exactly on its cause, and the host's Tick, KeySet and
ReadFramebuffer. -/

namespace Sys2Proof.Machine

/-- A result that answers to a cause is a fault only by that cause. -/
theorem Answers.eq_fault_iff {c : Option Fault} {r : Result} {f : Fault} (h : Answers c r) :
    r = .fault f ↔ c = some f := by
  cases c with
  | none =>
    obtain ⟨t, rfl⟩ : ∃ t, r = .next t := h
    exact iff_of_false nofun nofun
  | some g =>
    obtain rfl : r = .fault g := h
    rw [Host.Outcome.fault.injEq, Option.some_inj]

/-! Tick. -/

theorem hostTick_dt_toNat (s : State) : (hostTick s).dt.toNat = s.dt.toNat - 1 := countDown_toNat s.dt

theorem hostTick_st_toNat (s : State) : (hostTick s).st.toNat = s.st.toNat - 1 := countDown_toNat s.st

theorem performAll_ticks_succ (n : Nat) (s : State) :
    performAll (List.replicate (n + 1) .tick) s = performAll (List.replicate n .tick) (hostTick s) := rfl

/-- What every Tick counts down by 1, floored at 0, is less by `n` after `n` Ticks. -/
theorem performAll_ticks_toNat {timer : State → Byte} (htick : ∀ s, (timer (hostTick s)).toNat = (timer s).toNat - 1)
    (n : Nat) (s : State) : (timer (performAll (List.replicate n .tick) s)).toNat = (timer s).toNat - n := by
  induction n generalizing s with
  | zero => rfl
  | succ n ih => rw [performAll_ticks_succ, ih, htick, Nat.sub_sub, Nat.add_comm]

/-! KeySet. -/

theorem State.setKey_getKey (s : State) (k : Reg) : s.setKey k (s.getKey k) = s := by
  rw [State.setKey, State.getKey, Vector.set_getElem_self]

theorem State.setKey_setKey (s : State) (k : Reg) (b c : Bool) : (s.setKey k b).setKey k c = s.setKey k c := by
  simp only [State.setKey, Vector.set_set]

/-! ReadFramebuffer. -/

theorem Framebuffer.grid_length (fb : Framebuffer) : fb.grid.length = 2048 := by
  rw [Framebuffer.grid, List.length_map, List.length_range]

/-- The entry `y*64 + x` of the grid is `FB[y][x]` (R29). -/
theorem Framebuffer.grid_rowMajor (fb : Framebuffer) (y : Fin 32) (x : Fin 64) :
    fb.grid[y.val * 64 + x.val]? = some (fb.pixel y x) := by
  have hrow : y = fbRow ((y.val * 64 + x.val) / 64) := (eq_fbRow_iff y _).mpr (by omega)
  have hcol : x = fbColumn (y.val * 64 + x.val) := (eq_fbColumn_iff x _).mpr (by omega)
  rw [fb.grid_getElem? (by omega), ← hrow, ← hcol]

end Sys2Proof.Machine

namespace Sys2Proof.Safety

open Sys2Proof.Machine

theorem keepsBut_hostTick (s : State) : KeepsBut [.delay, .sound] s (hostTick s) :=
  KeepsFieldsBut.keepsBut (by simp [hostTick])

theorem keepsBut_setKey (s : State) (k : Reg) (b : Bool) : KeepsBut [.keys] s (s.setKey k b) :=
  KeepsFieldsBut.keepsBut (by simp)

/-- Settles O14: `exec_answers` goes through the 35 instructions; the rest is what an answer to a cause is. -/
theorem instructionsFaultExactlyOnCause : Obligations.InstructionsFaultExactlyOnCause := by
  refine fun i s => ⟨fun f => (exec_answers i s).eq_fault_iff, fun hnone => ?_⟩
  obtain ⟨t, ht, _⟩ := exec_next_of_faultOf_none hnone
  exact ⟨t, ht⟩

/-- Settles O55, by induction on the number of Ticks. -/
theorem ticksReachZeroAndStay : Obligations.TicksReachZeroAndStay := fun n s =>
  ⟨performAll_ticks_toNat hostTick_dt_toNat n s, performAll_ticks_toNat hostTick_st_toNat n s⟩

/-- Settles O54: Tick does not look at the mode. -/
theorem tickCountsDown : Obligations.TickCountsDown := fun s =>
  ⟨hostTick s, rfl, hostTick_dt_toNat s, hostTick_st_toNat s, keepsBut_hostTick s⟩

/-- Settles O56: of two writes of one key the last counts, and writing what it holds is no change. -/
theorem keySetChangesOneKey : Obligations.KeySetChangesOneKey := by
  refine fun k b s => ⟨⟨s.setKey k b, rfl, ?_, fun j hj => ?_, keepsBut_setKey s k b⟩, fun hb => ?_, fun hreleased => ?_⟩
  · rw [State.getKey_setKey, if_pos rfl]
  · rw [State.getKey_setKey, if_neg hj]
  · subst hb
    exact s.setKey_getKey k
  · calc (s.setKey k true).setKey k false
      _ = s.setKey k false := s.setKey_setKey k true false
      _ = s := by rw [← hreleased, s.setKey_getKey]

/-- Settles O57: the quotient and the remainder by 64 of `y*64 + x` are `y` and `x`. -/
theorem readFramebufferIsRowMajor : Obligations.ReadFramebufferIsRowMajor := fun s =>
  ⟨s.fb.grid, rfl, s.fb.grid_length, s.fb.grid_rowMajor⟩

end Sys2Proof.Safety
end

section
/-! PROOFS of the family of 70_reset_and_hazards.md: the two answers of LoadROM. -/

namespace Sys2Proof.Machine

/-- The byte `k` past the base of a store is the `k`-th of the list. -/
theorem Memory.read_writeBytes_add (m : Memory) (base : Nat) (bs : List Byte) {k : Nat} (hk : k < bs.length) :
    some ((m.writeBytes base bs).read (base + k)) = bs[k]? := by
  rw [Memory.read_writeBytes, if_pos (by omega), Nat.add_sub_cancel_left, List.getD_eq_getElem bs 0 hk,
    List.getElem?_eq_getElem hk]

/-- A ROM over `ROM_MAX` is refused (R198). -/
theorem perform_loadRom_of_gt {rom : List Byte} (h : 3584 < rom.length) (s : State) :
    perform (.loadRom rom) s = (s, .fault (.memoryOverrun rom.length)) := by
  have hrom : hostLoadRom rom s = .error (.memoryOverrun rom.length) := if_pos h
  rw [perform, hrom]

/-- A ROM up to `ROM_MAX` is stored at `PROG_BASE` (R197). -/
theorem perform_loadRom_of_le {rom : List Byte} (h : rom.length ≤ 3584) (s : State) :
    perform (.loadRom rom) s = (s.setMem (s.mem.writeBytes 0x200 rom), .ok) := by
  have hrom : hostLoadRom rom s = .ok (s.setMem (s.mem.writeBytes 0x200 rom)) := if_neg (Nat.not_lt.mpr h)
  rw [perform, hrom]

end Sys2Proof.Machine

namespace Sys2Proof.Safety

open Sys2Proof.Machine

theorem keepsBut_setMem (s : State) (m : Memory) : KeepsBut [.memory] s (s.setMem m) :=
  KeepsFieldsBut.keepsBut (by simp)

/-- Settles O59: a ROM that fits is one store at `0x200`. -/
theorem loadRomWritesVerbatim : Obligations.LoadRomWritesVerbatim := fun rom s =>
  ⟨fun hlong => perform_loadRom_of_gt hlong s, fun hfit =>
    ⟨s.setMem (s.mem.writeBytes 0x200 rom), perform_loadRom_of_le hfit s,
      fun _ hk => s.mem.read_writeBytes_add 0x200 rom hk, keepsMemoryBut_writeBytes s 0x200 rom,
      keepsBut_setMem s _⟩⟩

end Sys2Proof.Safety
end

section
/-! PROOFS of the statements that belong to no family above: what a fault depends on, so that it repeats, the fetch above
`0xFFE`, the state Reset leads to, and `sound_active`. -/

namespace Sys2Proof.Machine

open Sys2Proof.Safety

section Faults
variable {s t : State}

theorem fetch_of_pc_gt (h : 0xFFE < s.pc.toNat) : fetch s = .error (.addressOutOfRange s.pc.toNat) :=
  (fetch_eq s).trans (if_neg (Nat.not_le.mpr h))

/-- A fetch looks at `pc` and at bytes of memory alone. -/
theorem fetch_congr_reads (hmem : ∀ a, t.mem.read a = s.mem.read a) (hpc : t.pc = s.pc) : fetch t = fetch s := by
  rw [fetch_eq, fetch_eq, hpc, hmem, hmem]

/-- The causes of R176 are in the registers, `I` and the stack. -/
theorem faultOf_congr (hv : ∀ r, t.getV r = s.getV r) (hi : t.i = s.i) (hst : t.stack = s.stack) (i : Instr) :
    faultOf i t = faultOf i s := by
  have hsp : t.sp = s.sp := congrArg List.length hst
  cases i with
  | call | ret => simp only [faultOf, hsp]
  | skp | sknp => simp only [faultOf, hv]
  | drw | ldB | ldMemVx | ldVxMem => simp only [faultOf, hi]
  | _ => rfl

/-- Everything that makes a step fault: the mode is RUNNING, and the fetch or the fetched instruction has its cause. -/
theorem step_eq_fault_iff {f : Fault} :
    step s = .fault f ↔ s.mode = .running ∧
      (fetch s = .error f ∨ ∃ w i, fetch s = .ok w ∧ decodeWord w = .instr i ∧ faultOf i s.advance = some f) := by
  cases hm : s.mode with
  | waitingForKey =>
    obtain ⟨t, ht⟩ := waitingStep_isNext s
    rw [step_waiting s hm, ht]
    exact iff_of_false nofun nofun
  | running =>
    cases hf : fetch s with
    | error g => simp [step_fault_of_fetch hm hf]
    | ok w =>
      cases hd : decodeWord w with
      | reserved r => simp [step_reserved s hm hf hd, hd]
      | instr i => simp [step_instr s hm hf hd, hd, (exec_answers i s.advance).eq_fault_iff]

end Faults

theorem soundActive_iff (s : State) : soundActive s = true ↔ s.st.toNat ≠ 0 := by
  rw [soundActive, bne_iff_ne, ← BitVec.toNat_ne_iff_ne]
  rfl

end Sys2Proof.Machine

namespace Sys2Proof.Safety

open Sys2Proof.Machine

theorem KeepsBut.mono {ps qs : List Part} {s t : State} (h : KeepsBut ps s t) (hs : ps ⊆ qs) : KeepsBut qs s t :=
  fun p hp => h p fun hq => hp (hs hq)

/-- The counter of draws is no part of the state the spec names. -/
theorem keepsBut_draws (s : State) (d : Nat) : KeepsBut [] s { s with draws := d } :=
  KeepsFieldsBut.keepsBut fun p _ => by cases p <;> rfl

theorem perform_reset_restores (font : Font) (s : State) : ∃ t, perform (.reset font) s = (t, .ok) ∧
    KeepsBut [] (State.resetWith font) t ∧ t.mem = (State.resetWith font).mem :=
  ⟨hostReset font s, rfl, keepsBut_draws (State.resetWith font) s.draws, hostReset_mem s font⟩

/-- The timers, the keys, the display and `WAITX` decide no fault. -/
theorem step_fault_of_keepsBut {s t : State} {f : Fault} (h : KeepsBut [.delay, .sound, .keys, .display, .waitx] s t)
    (hs : step s = .fault f) : step t = .fault f := by
  have hmode : t.mode = s.mode := h .mode (by decide)
  have hfetch : fetch t = fetch s := fetch_congr_reads (h .memory (by decide)) (h .pc (by decide))
  have hcause (i : Instr) : faultOf i t.advance = faultOf i s.advance :=
    faultOf_congr (s := s.advance) (h .regs (by decide)) (h .index (by decide)) (h .stack (by decide)) i
  rw [step_eq_fault_iff] at hs ⊢
  simpa only [hmode, hfetch, hcause] using hs

/-- Settles O15: the faulting step leaves the state, and the rest changes only parts that decide no fault. -/
theorem faultRepeats : Obligations.FaultRepeats := by
  intro s f h
  refine ⟨?_, ?_, fun k b => ?_, fun d => ?_⟩
  · rwa [perform, hostStep_of_fault h]
  · exact step_fault_of_keepsBut ((keepsBut_hostTick s).mono (by decide)) h
  · exact step_fault_of_keepsBut ((keepsBut_setKey s k b).mono (by decide)) h
  · exact step_fault_of_keepsBut ((keepsBut_draws s d).mono (List.nil_subset _)) h

/-- Settles O2: the font shows in memory alone. -/
theorem resetClearsRegistersAndIndex : Obligations.ResetClearsRegistersAndIndex := fun font =>
  ⟨fun r => (State.reset.getV_setMem _ r).trans (State.reset_getV r), State.resetWith_i font⟩

/-- Settles O8: each word is the encoding of its instruction; the last has the reserved low nibble D. -/
theorem knownWordsDecode : Obligations.KnownWordsDecode :=
  ⟨decodeWord_encode (i := .sys 0x0E1) rfl, decodeWord_encode (i := .call 0xFFF) rfl,
    decodeWord_encode (i := .subnReg 0xA 0xB) rfl, decodeWord_encode (i := .drw 1 2 0xF) rfl,
    decodeWord_encode (i := .sknp 1) rfl, decodeWord_encode (i := .ldVxMem 0) rfl, rfl⟩

/-- Settles O11: the range fault of the fetch is the fault of the step. -/
theorem fetchBeyondMemoryFaults : Obligations.FetchBeyondMemoryFaults := fun _ hm hpc =>
  have h := step_fault_of_fetch hm (fetch_of_pc_gt hpc)
  ⟨h, hostStep_of_fault h⟩

/-- Settles O58: the answer is `soundActive`, which is the test of `ST` (R185). -/
theorem readSoundIsTimerNonzero : Obligations.ReadSoundIsTimerNonzero := fun s =>
  ⟨soundActive s, rfl, soundActive_iff s⟩

/-- Settles O60: Reset answers from every state, so from the one LoadROM leaves, the state after reset but for the model's
own counter. -/
theorem hostResetRestoresReset : Obligations.HostResetRestoresReset := fun font s rom _ =>
  perform_reset_restores font (perform (.loadRom rom) s).1

end Sys2Proof.Safety
end
